-- ==== Sys2Proof/Word.lean ====
section
/-! DEFINITION. The widths of the engine's words (spec/10_state.md R20, R22). -/

namespace Sys2Proof

/-- A command word: `cmd_data[47:0]` (30_encoding.md R70). -/
abbrev Word := BitVec 48

/-- A byte of the target's register space or of the bus (20_memory.md R51). -/
abbrev Byte := BitVec 8

/-- A 16-bit command field or a count as it is sent (30_encoding.md R70, 20_memory.md R54). -/
abbrev Half := BitVec 16

/-- An opcode, a sequencer code, a status field (10_state.md R22, R23). -/
abbrev Nibble := BitVec 4

end Sys2Proof
end

