-- ==== Sys2Proof/Config.lean ====
section
/-! DEFINITION. What is fixed for one machine: the constants and parameters of 00_scope.md R5, the input
ports of 10_state.md R20 and the free values (opaque: nothing can be proved of their values). -/

namespace Sys2Proof

/-- The parameters of 00_scope.md R5 that an integrator chooses: "the model takes as arguments"
(93_implementation_defined.md). The machine carries one value of this type and no step writes it (log 2). -/
structure Params where
  /-- REG_MODE, the target register number of the mode register. -/
  regMode : Byte
  /-- REG_PRESCALE, the target register number of the prescale register. -/
  regPrescale : Byte
  /-- REG_CH_BASE, the target register number of channel 0's on-count low byte. -/
  regChBase : Byte
  /-- BIT_RESTART, the mask of the restart bit in the mode register. -/
  bitRestart : Byte
  /-- BIT_SLEEP, the mask of the sleep bit in the mode register. -/
  bitSleep : Byte
  /-- BIT_AI, the mask of the auto-increment bit in the mode register. -/
  bitAi : Byte
  /-- CLK_HZ, the frequency of `clk`. -/
  clkHz : Nat
  /-- WAIT_CYCLES, the length of the settling wait in `clk` cycles. -/
  waitCycles : Nat
  /-- WCNT_W, the width of the wait counter. -/
  wcntW : Nat
deriving DecidableEq, Repr

/-- The six input ports of the engine, as sampled at one rising edge of `clk` (10_state.md R20). -/
structure Inputs where
  /-- `rst`, the synchronous reset. -/
  rst : Bool
  /-- `cmd_valid`, the host offers a command word. -/
  cmdValid : Bool
  /-- `cmd_data`, the command word. -/
  cmdData : Word
  /-- `bus_done`, the adapter reports the presented request complete. -/
  busDone : Bool
  /-- `bus_err`, with `bus_done`: the transaction failed. -/
  busErr : Bool
  /-- `bus_rdata`, with `bus_done` on a read: the byte read. -/
  busRdata : Byte
deriving DecidableEq, Repr, Inhabited

namespace Config

/-- N_CH, the target's channels (00_scope.md R5). -/
def nCh : Nat := 16
/-- DEV_ADDR, the device address of every transaction (00_scope.md R5, 20_memory.md R50). -/
def devAddr : BitVec 7 := 0x40#7
/-- OSC_HZ, the target's oscillator frequency (00_scope.md R5). -/
def oscHz : Nat := 25000000
/-- INIT_HZ, the frequency programmed by initialisation (00_scope.md R5). -/
def initHz : Nat := 60
/-- WAIT_US, the least settling wait in microseconds (00_scope.md R5). -/
def waitUs : Nat := 5000
/-- SERVO_CH_OFFSET (00_scope.md R5). -/
def servoChOffset : Nat := 7
/-- PULSE_LO, the pulse at DEG_LO (00_scope.md R5). -/
def pulseLo : Int := 180
/-- PULSE_HI, the pulse at DEG_HI (00_scope.md R5). -/
def pulseHi : Int := 570
/-- DEG_LO, the low end of the angle domain (00_scope.md R5). -/
def degLo : Int := 0
/-- DEG_HI, the high end of the angle domain (00_scope.md R5). -/
def degHi : Int := 180
/-- SPEED_CLAMP, the bound of the signed speed, and PERIOD, the ticks of a PWM period (00_scope.md R5). -/
def speedClamp : Nat := 4096

/-- CLK_HZ of the machine that reset builds: OPEN in 00_scope.md R5, so a free value (log 4). -/
opaque clkHz : Nat
/-- WAIT_CYCLES above its least legal value: OPEN in 00_scope.md R5, so a free value (log 4). -/
opaque waitSlack : Nat
/-- WCNT_W above its least legal value: OPEN in 00_scope.md R5, so a free value (log 4). -/
opaque wcntSlack : Nat

/-- The input ports at an edge that `State.inputs` does not list: the host's and the adapter's draws,
one for each edge number (00_scope.md R10, 70_reset_and_hazards.md R198; log 5). -/
opaque drawInputs : Nat → Inputs

/-- `max(1, ceil(WAIT_US * CLK_HZ / 1,000,000))`, the least legal WAIT_CYCLES (00_scope.md R5). -/
def leastWait (clkHz : Nat) : Nat := max 1 ((waitUs * clkHz + 999999) / 1000000)

/-- The bit length of a number (00_scope.md R5 uses it of WAIT_CYCLES - 1): 0 for 0, and for a positive
number one more than its base-2 logarithm. -/
def bitLength (n : Nat) : Nat := if n = 0 then 0 else n.log2 + 1

/-- The least legal WCNT_W for a WAIT_CYCLES (00_scope.md R5). -/
def leastWcntW (waitCycles : Nat) : Nat := max 1 (bitLength (waitCycles - 1))

/-- The parameters with the target's register numbers and mode bits at the spec's defaults
(00_scope.md R5; 93_implementation_defined.md G1, G2; log 3). -/
def defaults (clkHz waitCycles wcntW : Nat) : Params :=
  { regMode := 0x00#8, regPrescale := 0xFE#8, regChBase := 0x06#8,
    bitRestart := 0x80#8, bitSleep := 0x10#8, bitAi := 0x20#8,
    clkHz := clkHz, waitCycles := waitCycles, wcntW := wcntW }

/-- The parameters of the machine that reset builds: the spec's defaults where it gives one, any legal
value where it leaves the parameter OPEN (00_scope.md R5; log 4). -/
def params : Params :=
  defaults clkHz (leastWait clkHz + waitSlack)
    (leastWcntW (leastWait clkHz + waitSlack) + wcntSlack)

end Config

end Sys2Proof
end

