-- ==== Sys2Proof/Machine/State.lean ====
section
/-! DEFINITION. The state of the machine as plain data (10_state.md R22), the reasons a step could stop,
and the state after reset (10_state.md R25). -/

namespace Sys2Proof.Machine

/-- The values of the `state` register: "A model represents `state` as a type with exactly the eleven
values above" (40_register_driver.md R90; log 20). -/
inductive SeqState where
  /-- Waiting for a command. -/
  | idle
  /-- `initialize()`: the mode register is written 0x00. -/
  | iClr
  /-- `setFrequency`: the mode register is read. -/
  | fRd
  /-- The mode with the restart bit clear and the sleep bit set is written. -/
  | fSleep
  /-- The prescale register is written. -/
  | fPre
  /-- The original mode is written back. -/
  | fRestore
  /-- The settling wait. -/
  | fWait
  /-- The mode with the restart and the auto-increment bit set is written. -/
  | fRestart
  /-- First channel write. -/
  | chA
  /-- Second channel write (MOTOR only). -/
  | chB
  /-- A transaction failed; the engine is stopped until reset. -/
  | fault
deriving DecidableEq, Repr

/-- The thirteen registers of the engine: "The engine's state is exactly the following registers"
(10_state.md R22). -/
structure Engine where
  /-- `state`, the sequencer step. -/
  state : SeqState
  /-- `c_op`, opcode of the command in progress. -/
  cOp : Nibble
  /-- `c_id`, ID field of the command in progress. -/
  cId : Byte
  /-- `c_x`, X field of the command in progress. -/
  cX : Half
  /-- `c_y`, Y field of the command in progress. -/
  cY : Half
  /-- `c_dir`, DIR bit of the command in progress. -/
  cDir : BitVec 1
  /-- `oldmode`, the mode byte read by step F_RD. -/
  oldmode : Byte
  /-- `wcnt`, the settling-wait counter, a number below 2^WCNT_W (log 19). -/
  wcnt : Nat
  /-- `init_done`, the once-only initialisation flag. -/
  initDone : Bool
  /-- `err`, the last accepted command was illegal. -/
  err : Bool
  /-- `fault`, a bus transaction failed; sticky. -/
  fault : Bool
  /-- `fault_step`, the code of the step whose transaction failed. -/
  faultStep : Nibble
  /-- `last_op`, the OP of the last accepted command, legal or not. -/
  lastOp : Nibble
deriving DecidableEq, Repr

/-- The target's register space as a list of (register number, byte) pairs, numbers strictly rising. A
register that is not listed has no known value (93_implementation_defined.md U5; log 7). -/
abbrev Memory := List Host.Cell

/-- The whole machine: the engine's registers, and beside them what is not the engine's (log 2, 5, 7). -/
structure State where
  /-- The parameters of 00_scope.md R5; no step writes them. -/
  params : Params
  /-- The engine's registers. -/
  eng : Engine
  /-- What the target's registers are known to hold (20_memory.md R51, R66). -/
  target : Memory
  /-- The input ports at the coming edges, the next edge first (10_state.md R20). Beyond the end of the
  list they are the draws of `Config.drawInputs`. -/
  inputs : List Inputs
  /-- The number of the next edge, which says which draw is next. -/
  edge : Nat
deriving DecidableEq, Repr

/-- Why the machine could stop with a fault: no reason. The spec stops the machine nowhere: IllegalCommand
and BusFault (60_exceptions.md R160, R162) are next states, "There are no other exceptions" and a hang holds
(R163). Nobody raises a fault, which is safe (log 24). -/
inductive Fault : Type
deriving DecidableEq, Repr

/-- Why the machine could refuse an instruction. -/
inductive Refusal where
  /-- An instruction without a meaning yet, by its mnemonic. Raised by no arm of `exec`: every row of the
  opcode table has its meaning. Safe. -/
  | notModelled (mnemonic : String)
deriving DecidableEq, Repr

/-- The engine's registers after a reset edge (10_state.md R25). -/
def Engine.reset : Engine :=
  { state := .idle, cOp := 0#4, cId := 0#8, cX := 0#16, cY := 0#16, cDir := 0#1, oldmode := 0#8,
    wcnt := 0, initDone := false, err := false, fault := false, faultStep := 0#4, lastOp := 0#4 }

/-- The machine right after a power-up reset, for a choice of parameters: the engine's registers at R25's
values, nothing known of the target (70_reset_and_hazards.md R183, U5), no port sample scheduled. -/
def State.resetWith (p : Params) : State :=
  { params := p, eng := Engine.reset, target := [], inputs := [], edge := 0 }

/-- The machine right after reset, its OPEN parameters free (log 4). -/
def State.reset : State := State.resetWith Config.params

/-! The updates every operation is written with. -/

/-- The machine with the engine's registers replaced. -/
def State.withEng (s : State) (e : Engine) : State := { s with eng := e }

/-- The machine with the target's known contents replaced. -/
def State.withTarget (s : State) (m : Memory) : State := { s with target := m }

end Sys2Proof.Machine
end

