-- ==== Sys2Proof/Machine/Memory.lean ====
section
/-! DEFINITION. The target's register space: reading, writing and forgetting one location of the canonical
list, and the form it keeps (20_memory.md R51, R66). -/

namespace Sys2Proof.Machine

/-- What location `a` is known to hold; none where nothing is known (log 7). -/
def Memory.read : Memory → Nat → Option Byte
  | [], _ => none
  | c :: t, a => if c.1 = a then some c.2 else Memory.read t a

/-- Location `a` holds `b` from now on. -/
def Memory.write : Memory → Nat → Byte → Memory
  | [], a, b => [(a, b)]
  | c :: t, a, b =>
    if a < c.1 then (a, b) :: c :: t
    else if a = c.1 then (a, b) :: t
    else c :: Memory.write t a b

/-- Nothing is known of location `a` from now on. -/
def Memory.forget : Memory → Nat → Memory
  | [], _ => []
  | c :: t, a => if c.1 = a then Memory.forget t a else c :: Memory.forget t a

/-- Nothing is known of the locations `as` from now on. -/
def Memory.forgetAll (m : Memory) : List Nat → Memory
  | [] => m
  | a :: as => Memory.forgetAll (Memory.forget m a) as

/-- Consecutive locations from `a`, modulo the 256 of the register space, take the bytes in turn:
`reg[(ptr+i-1) mod 256] <- b_i` (20_memory.md R66). -/
def Memory.writeBurst (m : Memory) (a : Nat) : List Byte → Memory
  | [] => m
  | b :: bs => Memory.writeBurst (Memory.write m (a % 256) b) (a + 1) bs

/-- The canonical form: register numbers strictly rising, each below 256 (20_memory.md R51). No entry can
equal what an unlisted location reads as, since that is no value. -/
def Memory.wf : Memory → Bool
  | [] => true
  | c :: t => decide (c.1 < 256) && t.all (fun d => decide (c.1 < d.1)) && Memory.wf t

end Sys2Proof.Machine
end

