-- ==== Sys2Proof/Syntax.lean ====
section
/-! DEFINITION. The commands of the engine, one constructor per row of spec/opcode_table.json, and the
assembler's terms (30_encoding.md R72, R73, R76, R77). -/

namespace Sys2Proof

/-- A command. The fields are the raw bits of the word (30_encoding.md R70): a field that R73 calls
ignored is kept, because acceptance latches it (40_register_driver.md R93; log 16). The reserved bits
[3:1] are latched nowhere and are not kept (R75). -/
inductive Instr where
  /-- SERVO: `sid` is ID, `deg` is X (42_servo.md R132). -/
  | servo (sid : Byte) (deg y : Half) (dir : BitVec 1)
  /-- MOTOR: `mid` is ID, `spd` is X, `dir` is DIR (43_motor.md R144). -/
  | motor (mid : Byte) (spd y : Half) (dir : BitVec 1)
  /-- CHPWM: `ch` is ID, `on` is X, `off` is Y (40_register_driver.md R102). -/
  | chpwm (ch : Byte) (on off : Half) (dir : BitVec 1)
  /-- FREQ: `hz` is X (40_register_driver.md R100). -/
  | freq (id : Byte) (hz y : Half) (dir : BitVec 1)
  /-- INIT: no operands (40_register_driver.md R103). -/
  | init (id : Byte) (x y : Half) (dir : BitVec 1)
  /-- A word whose OP is none of 1 to 5: an IllegalCommand, of which only OP is recorded
  (30_encoding.md R74, 60_exceptions.md R160). -/
  | illegal (op : Nibble)
deriving DecidableEq, Repr

/-- A line of the assembler's syntax, its numbers as written (30_encoding.md R76, R77; the lexing of the
text is not modelled, log 23). -/
inductive Asm where
  | servo (sid deg : Int)
  /-- `MOTOR <mid>, CW|CCW, <spd>`: `ccw` is true for CCW. -/
  | motor (mid : Int) (ccw : Bool) (spd : Int)
  | chpwm (ch on off : Int)
  | freq (hz : Int)
  | init
  /-- `.word <48-bit hex>`. -/
  | word (w : Int)
  /-- `STOP <mid>` = `MOTOR <mid>, CW, 0`. -/
  | stop (mid : Int)
  /-- `PWMOFF <ch>` = `CHPWM <ch>, 0, 0`. -/
  | pwmoff (ch : Int)
  /-- `CENTER <sid>` = `SERVO <sid>, 90`. -/
  | center (sid : Int)
deriving DecidableEq, Repr

end Sys2Proof
end

