-- ==== Sys2Proof/WellFormed.lean ====
section
/-! DEFINITION. When a command term, and when a choice of parameters, is well formed. -/

namespace Sys2Proof

/-- Is `op` the opcode of SERVO, MOTOR, CHPWM, FREQ or INIT? (30_encoding.md R72.) -/
def isAssignedOp (op : Nibble) : Bool := decide (1 ≤ op.toNat) && decide (op.toNat ≤ 5)

/-- A command term is well formed when it is the reading of some word: an `illegal` term carries an OP
that R72 leaves illegal. Every value of every other field is encodable (30_encoding.md R74). -/
def Instr.wellFormed : Instr → Bool
  | .servo _ _ _ _ => true
  | .motor _ _ _ _ => true
  | .chpwm _ _ _ _ => true
  | .freq _ _ _ _ => true
  | .init _ _ _ _ => true
  | .illegal op => !isAssignedOp op

/-- A one-hot 8-bit mask (00_scope.md R5). -/
abbrev oneHot (b : Byte) : Prop := b ≠ 0#8 ∧ b &&& (b - 1#8) = 0#8

/-- Is a register number one of a channel block's, `[REG_CH_BASE, REG_CH_BASE + 63]`? (00_scope.md R5.) -/
abbrev Params.inChannels (p : Params) (r : Byte) : Prop :=
  p.regChBase.toNat ≤ r.toNat ∧ r.toNat ≤ p.regChBase.toNat + 63

/-- "WAIT_CYCLES at least max(1, ceil(WAIT_US * CLK_HZ / 1,000,000))" (00_scope.md R5). -/
abbrev Params.waitOk (p : Params) : Prop := Config.leastWait p.clkHz ≤ p.waitCycles

/-- The constraints on the settling wait: WAIT_CYCLES long enough, and WCNT_W wide enough to count it
(00_scope.md R5, 92_eei_decisions.md D17). -/
abbrev Params.settles (p : Params) : Prop :=
  p.waitOk ∧ Config.leastWcntW p.waitCycles ≤ p.wcntW

/-- The parameter constraints of 00_scope.md R5. -/
abbrev Params.wf (p : Params) : Prop :=
  p.regChBase.toNat + 4 * 15 + 3 ≤ 255
  ∧ oneHot p.bitRestart ∧ oneHot p.bitSleep ∧ oneHot p.bitAi
  ∧ p.bitRestart ≠ p.bitSleep ∧ p.bitRestart ≠ p.bitAi ∧ p.bitSleep ≠ p.bitAi
  ∧ p.regMode ≠ p.regPrescale
  ∧ ¬ p.inChannels p.regMode ∧ ¬ p.inChannels p.regPrescale
  ∧ p.settles

end Sys2Proof
end

