-- ==== Sys2Proof/Decode.lean ====
section
/-! DEFINITION. From a command word to a command and back, written from the one format of 30_encoding.md
R70 and the opcode map of R72, and the assembler of R76 and R77. -/

namespace Sys2Proof

/-! ## Fields (30_encoding.md R70) -/

/-- OP, bits [47:44]. -/
def fieldOp (w : Word) : Nibble := w.extractLsb' 44 4
/-- ID, bits [43:36]. -/
def fieldId (w : Word) : Byte := w.extractLsb' 36 8
/-- X, bits [35:20]. -/
def fieldX (w : Word) : Half := w.extractLsb' 20 16
/-- Y, bits [19:4]. -/
def fieldY (w : Word) : Half := w.extractLsb' 4 16
/-- RSV, bits [3:1]: reserved, read by nothing but this definition (R75). -/
def fieldRsv (w : Word) : BitVec 3 := w.extractLsb' 1 3
/-- DIR, bit [0]. -/
def fieldDir (w : Word) : BitVec 1 := w.extractLsb' 0 1

/-! ## Opcodes (30_encoding.md R72) -/

/-- OP of SERVO. -/
def opServo : Nibble := 0x1#4
/-- OP of MOTOR. -/
def opMotor : Nibble := 0x2#4
/-- OP of CHPWM. -/
def opChpwm : Nibble := 0x3#4
/-- OP of FREQ. -/
def opFreq : Nibble := 0x4#4
/-- OP of INIT. -/
def opInit : Nibble := 0x5#4

/-- The command a word is. Total: "every transfer on the command port is exactly one command" (R71). A
word whose OP is not assigned is rejected by name, as `illegal` with its OP (R74(a)). -/
def decode (w : Word) : Instr :=
  if fieldOp w = opServo then .servo (fieldId w) (fieldX w) (fieldY w) (fieldDir w)
  else if fieldOp w = opMotor then .motor (fieldId w) (fieldX w) (fieldY w) (fieldDir w)
  else if fieldOp w = opChpwm then .chpwm (fieldId w) (fieldX w) (fieldY w) (fieldDir w)
  else if fieldOp w = opFreq then .freq (fieldId w) (fieldX w) (fieldY w) (fieldDir w)
  else if fieldOp w = opInit then .init (fieldId w) (fieldX w) (fieldY w) (fieldDir w)
  else .illegal (fieldOp w)

/-- Is the command legal? Illegal are exactly an unassigned OP and FREQ with X = 0 (R74). -/
def Instr.legal : Instr → Bool
  | .servo _ _ _ _ => true
  | .motor _ _ _ _ => true
  | .chpwm _ _ _ _ => true
  | .freq _ hz _ _ => hz != 0#16
  | .init _ _ _ _ => true
  | .illegal _ => false

/-! ## Encoding (30_encoding.md R76) -/

/-- `enc(op, id8, x16, y16, dir1) = {op, id8, x16, y16, 0b000, dir1}` (R76). -/
def enc (op : Nibble) (id : Byte) (x y : Half) (dir : BitVec 1) : Word :=
  op ++ id ++ x ++ y ++ 0#3 ++ dir

/-- OP of a command (R72). -/
def Instr.op : Instr → Nibble
  | .servo _ _ _ _ => opServo
  | .motor _ _ _ _ => opMotor
  | .chpwm _ _ _ _ => opChpwm
  | .freq _ _ _ _ => opFreq
  | .init _ _ _ _ => opInit
  | .illegal op => op

/-- The word of a command, reserved bits 0 (R75, R76). -/
def encode : Instr → Word
  | .servo sid deg y dir => enc opServo sid deg y dir
  | .motor mid spd y dir => enc opMotor mid spd y dir
  | .chpwm ch on off dir => enc opChpwm ch on off dir
  | .freq id hz y dir => enc opFreq id hz y dir
  | .init id x y dir => enc opInit id x y dir
  | .illegal op => enc op 0 0 0 0

/-! ## The assembler (30_encoding.md R76, R77) -/

/-- An operand in its range, or a refusal: "the assembler refuses it, it does not wrap" (R76). -/
def operand (w : Nat) (lo hi v : Int) : Option (BitVec w) :=
  if lo ≤ v ∧ v ≤ hi then some (BitVec.ofInt w v) else none

/-- An unsigned 8-bit operand: a servo or motor id. -/
def operandId (v : Int) : Option Byte := operand 8 0 255 v
/-- A signed 8-bit operand: a raw channel. -/
def operandCh (v : Int) : Option Byte := operand 8 (-128) 127 v
/-- A signed 16-bit operand: a degree or a speed. -/
def operandSigned (v : Int) : Option Half := operand 16 (-32768) 32767 v
/-- An unsigned 16-bit operand: a count or a frequency. -/
def operandCount (v : Int) : Option Half := operand 16 0 65535 v

/-- `SERVO s, d = enc(0x1, s, low16(d), 0, 0)`. -/
def asmServo (sid deg : Int) : Option Word :=
  match operandId sid, operandSigned deg with
  | some s, some d => some (enc opServo s d 0 0)
  | _, _ => none

/-- `MOTOR m, CW, v = enc(0x2, m, low16(v), 0, 0)`, and DIR 1 for CCW. -/
def asmMotor (mid : Int) (ccw : Bool) (spd : Int) : Option Word :=
  match operandId mid, operandSigned spd with
  | some m, some v => some (enc opMotor m v 0 (BitVec.ofBool ccw))
  | _, _ => none

/-- `CHPWM c, a, b = enc(0x3, c mod 256, a, b, 0)`. -/
def asmChpwm (ch on off : Int) : Option Word :=
  match operandCh ch, operandCount on, operandCount off with
  | some c, some a, some b => some (enc opChpwm c a b 0)
  | _, _, _ => none

/-- The word of an assembler line, none where an operand is outside its range (R76); the pseudo-commands
"expand to exactly one command each" (R77). -/
def assemble : Asm → Option Word
  | .servo sid deg => asmServo sid deg
  | .motor mid ccw spd => asmMotor mid ccw spd
  | .chpwm ch on off => asmChpwm ch on off
  | .freq hz => (operandCount hz).map fun h => enc opFreq 0 h 0 0
  | .init => some (enc opInit 0 0 0 0)
  | .word w => operand 48 0 281474976710655 w
  | .stop mid => asmMotor mid false 0
  | .pwmoff ch => asmChpwm ch 0 0
  | .center sid => asmServo sid 90

/-! ## The opcode table's words -/

/-- The word whose low `nbits` bits are those of `w` and whose other bits are 0. -/
def tableWord (nbits w : Nat) : Word := BitVec.ofNat 48 (w % 2 ^ nbits)

/-- The command the decoder reads from a table row's bits: the port is one parallel 48-bit word, so bit k
of `w` is bit k of `cmd_data` and there is no byte order (91_not_in_source.md N11; log 21). A row longer
than a command is none (30_encoding.md R71). -/
def decodeTableWord (nbits w : Nat) : Option Instr :=
  if nbits ≤ 48 then some (decode (tableWord nbits w)) else none

end Sys2Proof
end

