-- ==== Sys2Proof/Machine/Flags.lean ====
section
/-! DEFINITION. Every flag and status computation of the spec: the codes of the sequencer's steps, BUSY,
the status word, `cmd_ready`, and the opcode classes the flags depend on. -/

namespace Sys2Proof.Machine

/-- The 4-bit code of a sequencer step (40_register_driver.md R90). -/
def stepCode : SeqState → Nibble
  | .idle => 0x0#4
  | .iClr => 0x1#4
  | .fRd => 0x2#4
  | .fSleep => 0x3#4
  | .fPre => 0x4#4
  | .fRestore => 0x5#4
  | .fWait => 0x6#4
  | .fRestart => 0x7#4
  | .chA => 0x8#4
  | .chB => 0x9#4
  | .fault => 0xF#4

/-- BUSY: "1 when `state != IDLE`; it stays 1 in FAULT" (10_state.md R23). -/
def busy (e : Engine) : Bool := decide (e.state ≠ .idle)

/-- The status word: `{0000, FAULT_STEP, LAST_OP, FAULT, ERR, INIT_DONE, BUSY}` (10_state.md R23). -/
def status (e : Engine) : BitVec 16 :=
  0#4 ++ e.faultStep ++ e.lastOp ++ BitVec.ofBool e.fault ++ BitVec.ofBool e.err
    ++ BitVec.ofBool e.initDone ++ BitVec.ofBool (busy e)

/-- `cmd_ready = (state == IDLE) AND NOT rst` (10_state.md R21). -/
def cmdReady (e : Engine) (rst : Bool) : Bool := decide (e.state = .idle) && !rst

/-- Is the opcode one of the two public commands, SERVO and MOTOR, which check and set `init_done`?
(41_lazy_init.md R121, R122, R125.) -/
def isPublic (op : Nibble) : Bool := decide (op = opServo) || decide (op = opMotor)

end Sys2Proof.Machine
end

