-- ==== Sys2Proof/Machine/Operands.lean ====
section
/-! DEFINITION. The operand forms and the three arithmetic units: the angle-to-pulse scalar (42_servo.md),
the motor H-bridge selector (43_motor.md) and the prescale setter (40_register_driver.md R99, R104, R105),
each a function of the latched operands (10_state.md R26). Arithmetic is on unbounded integers
(00_scope.md R7). -/

namespace Sys2Proof.Machine

/-! ## Notation (00_scope.md R7) -/

/-- `low16(v) = v mod 65536`. -/
def low16 (v : Int) : Half := BitVec.ofInt 16 v

/-- `lowbyte(v) = v mod 256`. -/
def lowbyte (v : Int) : Byte := BitVec.ofInt 8 v

/-- The low byte of a count (20_memory.md R54). -/
def loByte (v : Half) : Byte := v.extractLsb' 0 8

/-- The high byte of a count (20_memory.md R54). -/
def hiByte (v : Half) : Byte := v.extractLsb' 8 8

/-! ## Channels -/

/-- `inrange(ch) = (0 <= ch <= 15)`, on the exact integer (40_register_driver.md R97). -/
def inrange (ch : Int) : Bool := decide (0 ≤ ch) && decide (ch < Config.nCh)

/-- `servo_ch(sid) = sid + 7` (42_servo.md R130). -/
def servoCh (sid : Byte) : Int := (sid.toNat : Int) + Config.servoChOffset

/-- `plus(mid) = (4 - mid)*2 + 1` (43_motor.md R140). -/
def plusCh (mid : Byte) : Int := (4 - (mid.toNat : Int)) * 2 + 1

/-- `minus(mid) = (4 - mid)*2` (43_motor.md R140). -/
def minusCh (mid : Byte) : Int := (4 - (mid.toNat : Int)) * 2

/-- The raw channel of CHPWM, `sext_8(ID)` (30_encoding.md R73). -/
def rawCh (ch : Byte) : Int := ch.toInt

/-! ## The angle-to-pulse scalar -/

/-- `pulse(deg) = tdiv(13*deg + 1080, 6)`, truncated toward zero, not clamped (42_servo.md R131). -/
def pulse (deg : Int) : Int := Int.tdiv (13 * deg + 1080) 6

/-! ## The motor H-bridge selector -/

/-- `dsign`: +1 if DIR = 0, -1 if DIR = 1 (30_encoding.md R73). -/
def dsign (dir : BitVec 1) : Int := if dir = 0#1 then 1 else -1

/-- `v = spd * dsign`, with `spd = sext_16(X)` (43_motor.md R141). -/
def signedV (spd : Half) (dir : BitVec 1) : Int := spd.toInt * dsign dir

/-- The count of the active side: 4096 if |v| >= 100, else `(|v| * 1024) div 25` (43_motor.md R142). -/
def mag (v : Int) : Nat := if 100 ≤ v.natAbs then Config.speedClamp else v.natAbs * 1024 / 25

/-- The plus channel's off-count: `mag(v)` if v <= 0, else 0 (43_motor.md R143). -/
def plusOff (v : Int) : Int := if v ≤ 0 then mag v else 0

/-- The minus channel's off-count: 0 if v <= 0, else `mag(v)` (43_motor.md R143). -/
def minusOff (v : Int) : Int := if v ≤ 0 then 0 else mag v

/-! ## The operands of the channel-write steps (10_state.md R26) -/

/-- A channel write `ChWrite(ch, on, off)`: a channel and two counts, all integers (20_memory.md R55). -/
structure ChanWrite where
  ch : Int
  on : Int
  off : Int
deriving DecidableEq, Repr

/-- `chA`, `onA`, `offA` from the latched command: SERVO (42_servo.md R132), MOTOR (43_motor.md R144),
CHPWM (40_register_driver.md R102). The spec wires no operands for another `c_op`, with which CH_A is never
entered: none (log 18). -/
def chanA (e : Engine) : Option ChanWrite :=
  if e.cOp = opServo then some ⟨servoCh e.cId, 0, pulse e.cX.toInt⟩
  else if e.cOp = opMotor then some ⟨plusCh e.cId, 0, plusOff (signedV e.cX e.cDir)⟩
  else if e.cOp = opChpwm then some ⟨rawCh e.cId, (e.cX.toNat : Int), (e.cY.toNat : Int)⟩
  else none

/-- `chB`, `onB`, `offB` from the latched command: MOTOR only (43_motor.md R144; log 18). -/
def chanB (e : Engine) : Option ChanWrite :=
  if e.cOp = opMotor then some ⟨minusCh e.cId, 0, minusOff (signedV e.cX e.cDir)⟩
  else none

/-! ## The prescale setter -/

/-- `prescale(hz) = (2*OSC_HZ + 4096*hz) div (8192*hz) - 1` (40_register_driver.md R99). -/
def prescale (hz : Nat) : Int := (((2 * Config.oscHz + 4096 * hz) / (8192 * hz) : Nat) : Int) - 1

/-- `prescale_byte(hz) = lowbyte(prescale(hz))` (40_register_driver.md R99). -/
def prescaleByte (hz : Nat) : Byte := lowbyte (prescale hz)

/-- `seq_hz`: `zext_16(c_x)` if `c_op` = FREQ, and INIT_HZ otherwise (40_register_driver.md R104). -/
def seqHz (e : Engine) : Nat := if e.cOp = opFreq then e.cX.toNat else Config.initHz

/-- `sleep_val = (oldmode AND NOT BIT_RESTART) OR BIT_SLEEP` (40_register_driver.md R105). -/
def sleepVal (p : Params) (oldmode : Byte) : Byte := (oldmode &&& ~~~p.bitRestart) ||| p.bitSleep

/-- `restart_val = oldmode OR BIT_RESTART OR BIT_AI` (40_register_driver.md R105). -/
def restartVal (p : Params) (oldmode : Byte) : Byte := oldmode ||| p.bitRestart ||| p.bitAi

end Sys2Proof.Machine
end

