-- ==== Sys2Proof/Machine/Bus.lean ====
section
/-! DEFINITION. The transaction port: the transaction each sequencer step presents (40_register_driver.md
R91), its bytes on the ports (20_memory.md R52, R53), and what a transaction leaves in the target. -/

namespace Sys2Proof.Machine

/-- A bus transaction to DEV_ADDR (20_memory.md R52). -/
inductive Txn where
  /-- WR_REG: the pointer, then one data byte. -/
  | wrReg (ptr data : Byte)
  /-- WR_BUF: the pointer, then four data bytes, in wire order. -/
  | wrBuf (ptr b1 b2 b3 b4 : Byte)
  /-- RD_REG: the pointer, then one byte read. -/
  | rdReg (ptr : Byte)
deriving DecidableEq, Repr

/-- `ChWrite(ch, on, off)`: the burst to `REG_CH_BASE + 4*ch` of on-low, on-high, off-low, off-high of the
counts' `low16`, unmasked (20_memory.md R55, 40_register_driver.md R98). -/
def chWrite (p : Params) (c : ChanWrite) : Txn :=
  .wrBuf (lowbyte ((p.regChBase.toNat : Int) + 4 * c.ch))
    (loByte (low16 c.on)) (hiByte (low16 c.on)) (loByte (low16 c.off)) (hiByte (low16 c.off))

/-- The transaction of a channel-write step: none when the channel is out of range
(40_register_driver.md R97, R98) or when the step has no operands (log 18). -/
def chanTxn (p : Params) : Option ChanWrite → Option Txn
  | some c => if inrange c.ch then some (chWrite p c) else none
  | none => none

/-- The transaction presented in each state, none where `bus_req_valid` = 0 (40_register_driver.md R91). -/
def presented (p : Params) (e : Engine) : Option Txn :=
  match e.state with
  | .iClr => some (.wrReg p.regMode 0x00#8)
  | .fRd => some (.rdReg p.regMode)
  | .fSleep => some (.wrReg p.regMode (sleepVal p e.oldmode))
  | .fPre => some (.wrReg p.regPrescale (prescaleByte (seqHz e)))
  | .fRestore => some (.wrReg p.regMode e.oldmode)
  | .fRestart => some (.wrReg p.regMode (restartVal p e.oldmode))
  | .chA => chanTxn p (chanA e)
  | .chB => chanTxn p (chanB e)
  | .idle => none
  | .fWait => none
  | .fault => none

/-! ## The output ports (10_state.md R20, R21) -/

/-- The five `bus_req_*` outputs. -/
structure BusReq where
  valid : Bool
  kind : BitVec 2
  addr : BitVec 7
  len : BitVec 3
  data : BitVec 40
deriving DecidableEq, Repr

/-- `bus_req_data` from the bytes of the request, byte i at bits [8i+7:8i] (20_memory.md R53). -/
def payload (b0 b1 b2 b3 b4 : Byte) : BitVec 40 := b4 ++ b3 ++ b2 ++ b1 ++ b0

/-- The outputs for a presented transaction, or for none: unused bytes 0, and with no request every field
but the address 0 (10_state.md R21, 20_memory.md R52, R53). -/
def busReq : Option Txn → BusReq
  | some (.wrReg ptr d) => ⟨true, 0#2, Config.devAddr, 2#3, payload ptr d 0#8 0#8 0#8⟩
  | some (.wrBuf ptr b1 b2 b3 b4) => ⟨true, 1#2, Config.devAddr, 5#3, payload ptr b1 b2 b3 b4⟩
  | some (.rdReg ptr) => ⟨true, 2#2, Config.devAddr, 1#3, payload ptr 0#8 0#8 0#8 0#8⟩
  | none => ⟨false, 0#2, Config.devAddr, 0#3, 0#40⟩

/-- All outputs of the engine in a cycle, with the level of `rst` in it (10_state.md R20, R21). -/
structure Outputs where
  cmdReady : Bool
  status : BitVec 16
  busReq : BusReq
deriving DecidableEq, Repr

/-- The output ports: functions of the registers, but that `cmd_ready` also reads `rst` (10_state.md R21). -/
def outputs (p : Params) (e : Engine) (rst : Bool) : Outputs :=
  { cmdReady := cmdReady e rst, status := status e, busReq := busReq (presented p e) }

/-! ## What a transaction leaves in the target -/

/-- The locations a transaction may write (20_memory.md R51, R66). -/
def Txn.touched : Txn → List Nat
  | .wrReg ptr _ => [ptr.toNat]
  | .wrBuf ptr _ _ _ _ =>
    [ptr.toNat % 256, (ptr.toNat + 1) % 256, (ptr.toNat + 2) % 256, (ptr.toNat + 3) % 256]
  | .rdReg _ => []

/-- Is the target known to have a mode bit set? -/
def modeHas (p : Params) (m : Memory) (bit : Byte) : Bool :=
  match Memory.read m p.regMode.toNat with
  | some v => decide (v &&& bit = bit)
  | none => false

/-- The target after an acknowledged transaction. The written bytes land as sent (20_memory.md R66; log 8),
but for two cases the spec leaves open, after which nothing is known of the locations: a prescale write
with the sleep bit not known set (93_implementation_defined.md U1; log 11) and a burst with the
auto-increment bit not known set (U4; log 10). A read leaves the target as it is (20_memory.md R58; log 13). -/
def landed (p : Params) (m : Memory) : Txn → Memory
  | .wrReg ptr d =>
    if ptr = p.regPrescale ∧ modeHas p m p.bitSleep = false then Memory.forget m ptr.toNat
    else Memory.write m ptr.toNat d
  | .wrBuf ptr b1 b2 b3 b4 =>
    if modeHas p m p.bitAi then Memory.writeBurst m ptr.toNat [b1, b2, b3, b4]
    else Memory.forgetAll m (Txn.touched (.wrBuf ptr b1 b2 b3 b4))
  | .rdReg _ => m

/-- The target after a transaction that failed or was withdrawn: any subset of its bytes may have been
written, so nothing is known of the locations it touches (U6, U7; log 9). -/
def disturbed (m : Memory) (t : Txn) : Memory := Memory.forgetAll m (Txn.touched t)

/-- The target after the restart write. Where the constraints on the settling wait are broken, WAIT_CYCLES too
small or WCNT_W too narrow for it, the target's "resulting state is any value": nothing is known of it
(93_implementation_defined.md U3, 92_eei_decisions.md D17; DESIGN CHOICE, log 12). -/
def afterRestart (p : Params) (m : Memory) : Memory := if p.settles then m else []

/-- The target after a transaction that step `st` presented, from what the transaction itself left. A restart
write may have reached the target however it ended, acknowledged, failed or withdrawn by reset (U6, U7), so
U3 applies to all three (log 12). -/
def afterStep (p : Params) (st : SeqState) (m : Memory) : Memory :=
  if st = .fRestart then afterRestart p m else m

end Sys2Proof.Machine
end

