-- ==== Sys2Proof/Machine/Ops.lean ====
section
/-! DEFINITION. The named operations of the engine over its registers: acceptance, the two error events
(taking an exception), the return from them (reset), completion, successor and wait
(40_register_driver.md R92 to R96, 60_exceptions.md R160, R162, 70_reset_and_hazards.md R180). -/

namespace Sys2Proof.Machine

/-! ## The ports at an edge -/

/-- The input ports as sampled at the next edge: the first scheduled sample, or a free draw (log 5). -/
def State.sampled (s : State) : Inputs :=
  match s.inputs with
  | i :: _ => i
  | [] => Config.drawInputs s.edge

/-- The machine with the edge's sample used up. -/
def State.consume (s : State) : State := { s with inputs := s.inputs.tail, edge := s.edge + 1 }

/-! ## The error events: taking an exception and returning from it -/

/-- "the two error events" (00_scope.md R8). -/
inductive ErrorEvent where
  /-- `IllegalCommand(op)` (60_exceptions.md R160). -/
  | illegalCommand (op : Nibble)
  /-- `BusFault(step)` (60_exceptions.md R162). -/
  | busFault (step : SeqState)
deriving DecidableEq, Repr

/-- `raise`: the one operation that takes an exception. IllegalCommand sets `err` and records OP in
`last_op`; `state` stays (60_exceptions.md R160). BusFault sets `fault`, saves the step's code in
`fault_step` and stops the engine in FAULT (R162, R165). No other register changes. -/
def raiseEvent (ev : ErrorEvent) (e : Engine) : Engine :=
  match ev with
  | .illegalCommand op => { e with err := true, lastOp := op }
  | .busFault step => { e with fault := true, faultStep := stepCode step, state := .fault }

/-- The return from FAULT, and from everything else: "There is no return from FAULT except reset"
(60_exceptions.md R166). Every register takes its reset value (70_reset_and_hazards.md R180); the target
keeps its registers (R181), but a presented request is withdrawn and may have been performed wholly, partly
or not at all (R182, U7, log 9; for a restart write also U3, log 12). -/
def resetEdge (s : State) : State :=
  { s with
    eng := Engine.reset
    target :=
      match presented s.params s.eng with
      | some t => afterStep s.params s.eng.state (disturbed s.target t)
      | none => s.target }

/-! ## Acceptance (40_register_driver.md R93) -/

/-- What a legal command's acceptance writes: `err <- 0`, `last_op`, the five latched operands, and the
command's first step. -/
def acceptLegal (op : Nibble) (id : Byte) (x y : Half) (dir : BitVec 1) (first : SeqState)
    (e : Engine) : Engine :=
  { e with
    err := false, lastOp := op, cOp := op, cId := id, cX := x, cY := y, cDir := dir, state := first }

/-- The first step of SERVO and MOTOR: CH_A if `init_done` = 1, else I_CLR (41_lazy_init.md R121). -/
def lazyFirst (e : Engine) : SeqState := if e.initDone then .chA else .iClr

/-! ## Steps (40_register_driver.md R94 to R96) -/

/-- `Next(s)` with its side effects, from the step the engine is in (40_register_driver.md R95). Two loads of
`wcnt` are the model's choice, both with parameters that R5 forbids (DESIGN CHOICE, log 19): a WCNT_W too narrow for
WAIT_CYCLES, against D17, loads it modulo 2^WCNT_W; and WAIT_CYCLES = 0 loads 0, since natural subtraction makes
WAIT_CYCLES - 1 equal to 0, so that F_WAIT lasts one cycle. The target is then as `afterStep` says (log 12). -/
def nextStep (p : Params) (e : Engine) : Engine :=
  match e.state with
  | .iClr => { e with state := .fRd }
  | .fRd => { e with state := .fSleep }
  | .fSleep => { e with state := .fPre }
  | .fPre => { e with state := .fRestore }
  | .fRestore => { e with state := .fWait, wcnt := (p.waitCycles - 1) % 2 ^ p.wcntW }
  | .fRestart =>
    if isPublic e.cOp then { e with state := .chA, initDone := true } else { e with state := .idle }
  | .chA => if e.cOp = opMotor then { e with state := .chB } else { e with state := .idle }
  | .chB => { e with state := .idle }
  | .idle => e
  | .fWait => e
  | .fault => e

/-- `Wait()` (40_register_driver.md R96). -/
def waitEdge (e : Engine) : Engine :=
  if e.wcnt = 0 then { e with state := .fRestart } else { e with wcnt := e.wcnt - 1 }

/-- The engine's registers after `Complete(s)` for the step it is in (40_register_driver.md R94). -/
def completeEng (p : Params) (inp : Inputs) (e : Engine) : Engine :=
  if inp.busErr then raiseEvent (.busFault e.state) e
  else if e.state = .fRd then nextStep p { e with oldmode := inp.busRdata }
  else nextStep p e

/-- The target after the completion of the presented transaction `t`: acknowledged, or failed, when any subset
of its bytes may have been written (60_exceptions.md R162; U6, log 9; for a restart write also U3, log 12). -/
def completeTarget (p : Params) (inp : Inputs) (e : Engine) (t : Txn) (m : Memory) : Memory :=
  afterStep p e.state (if inp.busErr then disturbed m t else landed p m t)

/-- A bus step at an edge: `Complete` where `bus_done` = 1, else the engine holds
(40_register_driver.md R92, R94). -/
def busEdge (inp : Inputs) (t : Txn) (s : State) : State :=
  if inp.busDone then
    { s with
      eng := completeEng s.params inp s.eng
      target := completeTarget s.params inp s.eng t s.target }
  else s

/-- A channel-write step whose channel is out of range: "skipped: one cycle, no request"
(40_register_driver.md R92). -/
def skipEdge (s : State) : State := s.withEng (nextStep s.params s.eng)

/-- The sequencer at an edge with `rst` = 0, outside acceptance: the arms of 40_register_driver.md R92. A
bus step is a step that presents a request. -/
def sequencerEdge (inp : Inputs) (s : State) : State :=
  match presented s.params s.eng with
  | some t => busEdge inp t s
  | none =>
    match s.eng.state with
    | .chA => skipEdge s
    | .chB => skipEdge s
    | .fWait => s.withEng (waitEdge s.eng)
    | .idle => s
    | .iClr => s
    | .fRd => s
    | .fSleep => s
    | .fPre => s
    | .fRestore => s
    | .fRestart => s
    | .fault => s

end Sys2Proof.Machine
end

