-- ==== Sys2Proof/Machine/Driver.lean ====
section
/-! DEFINITION. The raw commands of the chip register driver, CHPWM, FREQ and INIT
(40_register_driver.md R100, R102, R103). They neither read nor write `init_done` (41_lazy_init.md R125). -/

namespace Sys2Proof.Machine

/-- CHPWM, accepted: its step is the channel write of the latched counts (40_register_driver.md R102). -/
def execChpwm (ch : Byte) (on off : Half) (dir : BitVec 1) (s : State) :
    Host.Outcome State Fault Refusal :=
  .next (s.withEng (acceptLegal opChpwm ch on off dir .chA s.eng))

/-- FREQ, accepted: IllegalCommand if X = 0 (30_encoding.md R74, 60_exceptions.md R160), else the frequency
sequence starts with the read of the mode register (40_register_driver.md R100). -/
def execFreq (id : Byte) (hz y : Half) (dir : BitVec 1) (s : State) :
    Host.Outcome State Fault Refusal :=
  if hz = 0#16 then .next (s.withEng (raiseEvent (.illegalCommand opFreq) s.eng))
  else .next (s.withEng (acceptLegal opFreq id hz y dir .fRd s.eng))

/-- INIT, accepted: the sequence starts with the clearing of the mode register
(40_register_driver.md R103). -/
def execInit (id : Byte) (x y : Half) (dir : BitVec 1) (s : State) :
    Host.Outcome State Fault Refusal :=
  .next (s.withEng (acceptLegal opInit id x y dir .iClr s.eng))

end Sys2Proof.Machine
end

