-- ==== Sys2Proof/Machine/Illegal.lean ====
section
/-! DEFINITION. The illegal words (60_exceptions.md R160). -/

namespace Sys2Proof.Machine

/-- A word with an unassigned OP, accepted: the word is consumed and IllegalCommand is taken
(60_exceptions.md R160). -/
def execIllegal (op : Nibble) (s : State) : Host.Outcome State Fault Refusal :=
  .next (s.withEng (raiseEvent (.illegalCommand op) s.eng))

end Sys2Proof.Machine
end

