-- ==== Sys2Proof/Machine/Motor.lean ====
section
/-! DEFINITION. MOTOR (43_motor.md R144). -/

namespace Sys2Proof.Machine

/-- MOTOR, accepted: the operands are latched and the first step is the plus channel's write, or the lazy
initialisation if `init_done` = 0 (43_motor.md R144, 41_lazy_init.md R121, 40_register_driver.md R93). The
steps that follow are `sequencerEdge`'s, on these operands (log 1). -/
def execMotor (mid : Byte) (spd y : Half) (dir : BitVec 1) (s : State) :
    Host.Outcome State Fault Refusal :=
  .next (s.withEng (acceptLegal opMotor mid spd y dir (lazyFirst s.eng) s.eng))

end Sys2Proof.Machine
end

