-- ==== Sys2Proof/Machine/Servo.lean ====
section
/-! DEFINITION. SERVO (42_servo.md R132). -/

namespace Sys2Proof.Machine

/-- SERVO, accepted: the operands are latched and the first step is the channel write, or the lazy
initialisation if `init_done` = 0 (42_servo.md R132, 41_lazy_init.md R121, 40_register_driver.md R93). The
steps that follow are `sequencerEdge`'s, on these operands (log 1). -/
def execServo (sid : Byte) (deg y : Half) (dir : BitVec 1) (s : State) :
    Host.Outcome State Fault Refusal :=
  .next (s.withEng (acceptLegal opServo sid deg y dir (lazyFirst s.eng) s.eng))

end Sys2Proof.Machine
end

