-- ==== Sys2Proof/Machine/Dispatch.lean ====
section
/-! DEFINITION. The meaning of every command at its accepting edge (40_register_driver.md R93). -/

namespace Sys2Proof.Machine

-- What an accepted command does (30_encoding.md R72 gives each its rule).
def exec (i : Instr) (s : State) : Host.Outcome State Fault Refusal :=
  match i with
  | .servo sid deg y dir => Sys2Proof.Machine.execServo sid deg y dir s
  | .motor mid spd y dir => Sys2Proof.Machine.execMotor mid spd y dir s
  | .chpwm ch on off dir => Sys2Proof.Machine.execChpwm ch on off dir s
  | .freq id hz y dir => Sys2Proof.Machine.execFreq id hz y dir s
  | .init id x y dir => Sys2Proof.Machine.execInit id x y dir s
  | .illegal op => Sys2Proof.Machine.execIllegal op s

end Sys2Proof.Machine
end

