-- ==== Sys2Proof/Machine/Step.lean ====
section
/-! DEFINITION. One rising edge of `clk` (40_register_driver.md R92), and the offer of a command word at
the next edge. -/

namespace Sys2Proof.Machine

/-- "The engine's step at each rising edge of `clk`": reset dominates; in IDLE an offered word is decoded and
executed; in every other state the sequencer takes its step (40_register_driver.md R92). -/
def step (s : State) : Host.Outcome State Fault Refusal :=
  if s.sampled.rst then .next (resetEdge s.consume)
  else if s.eng.state = .idle then
    if s.sampled.cmdValid then exec (decode s.sampled.cmdData) s.consume
    else .next s.consume
  else .next (sequencerEdge s.sampled s.consume)

/-- The machine whose next edge accepts the word: the engine in IDLE, and at the next edge `rst` = 0,
`cmd_valid` = 1 and the word on `cmd_data` (10_state.md R20; log 6). -/
def State.withFetchWord (s : State) (nbits w : Nat) : State :=
  { s with
    eng := { s.eng with state := .idle }
    inputs := { s.sampled with rst := false, cmdValid := true, cmdData := tableWord nbits w }
      :: s.inputs.tail }

end Sys2Proof.Machine
end

