-- ==== Sys2Proof/Machine/Trace.lean ====
section
/-! DEFINITION. Runs of several edges, and the transactions the adapter completes in them: what the spec's
programs list (95_test_vectors.md section 3). -/

namespace Sys2Proof.Machine

/-- `n` edges from `s`. -/
def run : Nat → State → Host.Outcome State Fault Refusal
  | 0, s => .next s
  | n + 1, s =>
    match step s with
    | .next t => run n t
    | .fault r => .fault r
    | .refused r => .refused r

/-- The transaction that completes at the next edge, with `bus_err`: a request completes "at a rising edge
where `bus_req_valid = 1` and `bus_done = 1` and `rst = 0`" (10_state.md R20). -/
def completion (s : State) : Option (Txn × Bool) :=
  match presented s.params s.eng with
  | some t => if !s.sampled.rst && s.sampled.busDone then some (t, s.sampled.busErr) else none
  | none => none

/-- The transactions that complete in the next `n` edges, in order, each with its `bus_err`. -/
def trace : Nat → State → List (Txn × Bool)
  | 0, _ => []
  | n + 1, s =>
    (completion s).toList ++
      (match step s with
      | .next t => trace n t
      | .fault _ => []
      | .refused _ => [])

end Sys2Proof.Machine
end

