-- ==== Sys2Proof/Safety.lean ====
section
/-! DEFINITION. The terms the claims are made in: schedules of port samples that answer a command's
transactions, what a channel write leaves, the invariant of the machine, and the relations two machines are
compared by. -/

namespace Sys2Proof.Machine

/-! ## Schedules (70_reset_and_hazards.md R189, R197, R198) -/

/-- The samples over which the adapter answers one transaction without error: `bus_done` at the last of them
and at no earlier one. The latency K is their number, which is at least 1. -/
def acked : List Inputs → Bool
  | [] => false
  | [i] => !i.rst && i.busDone && !i.busErr
  | i :: j :: t => !i.rst && !i.busDone && acked (j :: t)

/-- Samples at which reset is not driven. -/
def quiet (l : List Inputs) : Bool := l.all (fun i => !i.rst)

/-- Samples at which reset is not driven and no transaction is answered. -/
def silent (l : List Inputs) : Bool := l.all (fun i => !i.rst && !i.busDone)

/-- The samples a channel-write step takes: an answered burst where the channel is in range, and one edge
where it is not. -/
def chanServed (ch : Int) (l : List Inputs) : Bool :=
  if 0 ≤ ch ∧ ch ≤ 15 then acked l else decide (l.length = 1) && quiet l

/-- The byte the adapter drives at the last of some samples. -/
def lastByte : List Inputs → Byte
  | [] => 0#8
  | [i] => i.busRdata
  | _ :: j :: t => lastByte (j :: t)

/-- A sample that offers the command `c` outside reset. -/
abbrev offers (o : Inputs) (c : Instr) : Prop :=
  o.rst = false ∧ o.cmdValid = true ∧ decode o.cmdData = c

/-- The samples of one frequency sequence, step by step. -/
structure SeqSchedule where
  rd : List Inputs
  sleep : List Inputs
  pre : List Inputs
  restore : List Inputs
  wait : List Inputs
  restart : List Inputs
deriving DecidableEq, Repr

/-- Every transaction of the sequence is answered, and the wait has its WAIT_CYCLES edges. -/
abbrev SeqSchedule.ok (q : SeqSchedule) (p : Params) : Prop :=
  acked q.rd ∧ acked q.sleep ∧ acked q.pre ∧ acked q.restore
  ∧ quiet q.wait ∧ q.wait.length = p.waitCycles ∧ acked q.restart

/-- The samples of the sequence in order. -/
def SeqSchedule.flat (q : SeqSchedule) : List Inputs :=
  q.rd ++ (q.sleep ++ (q.pre ++ (q.restore ++ (q.wait ++ q.restart))))

/-- BUSY is 1 in each of the `n` cycles after the next edge. -/
def BusyFor (n : Nat) (s : State) : Prop :=
  ∀ j, 1 ≤ j → j ≤ n → ∃ u, run j s = .next u ∧ (status u.eng).getLsbD 0 = true

/-! ## What transactions leave in the target -/

/-- The byte that a write of the counts `on` and `off` to channel `ch` puts at location `a`, if any
(20_memory.md R55). -/
def chanCell (p : Params) (ch : Int) (on off : Half) (a : Nat) : Option Byte :=
  if 0 ≤ ch ∧ ch ≤ 15 then
    if a = p.regChBase.toNat + 4 * ch.toNat then some (on.extractLsb' 0 8)
    else if a = p.regChBase.toNat + 4 * ch.toNat + 1 then some (on.extractLsb' 8 8)
    else if a = p.regChBase.toNat + 4 * ch.toNat + 2 then some (off.extractLsb' 0 8)
    else if a = p.regChBase.toNat + 4 * ch.toNat + 3 then some (off.extractLsb' 8 8)
    else none
  else none

/-- The byte that a completed frequency sequence which read the mode `m` and programmed the prescale byte `b`
leaves at location `a`, if any. -/
def seqCell (p : Params) (m b : Byte) (a : Nat) : Option Byte :=
  if a = p.regMode.toNat then some (m ||| p.bitRestart ||| p.bitAi)
  else if a = p.regPrescale.toNat then some b
  else none

/-- The transactions of one frequency sequence that reads the mode `m` and programs the prescale byte `b`
(40_register_driver.md R100). -/
def seqTxns (p : Params) (m b : Byte) : List Txn :=
  [.rdReg p.regMode, .wrReg p.regMode ((m &&& ~~~p.bitRestart) ||| p.bitSleep), .wrReg p.regPrescale b,
   .wrReg p.regMode m, .wrReg p.regMode (m ||| p.bitRestart ||| p.bitAi)]

/-- The transactions of one initialisation that reads the mode `m` (40_register_driver.md R103): hz = 60,
prescale byte 0x65. -/
def initTxns (p : Params) (m : Byte) : List Txn := .wrReg p.regMode 0x00#8 :: seqTxns p m 0x65#8

/-- The burst of a channel write, none where the channel is out of range (20_memory.md R55,
40_register_driver.md R97). -/
def chanTxns (p : Params) (ch : Int) (on off : Half) : List Txn :=
  if 0 ≤ ch ∧ ch ≤ 15 then
    [.wrBuf (p.regChBase + BitVec.ofNat 8 (4 * ch.toNat)) (on.extractLsb' 0 8) (on.extractLsb' 8 8)
      (off.extractLsb' 0 8) (off.extractLsb' 8 8)]
  else []

/-- Transactions that all complete without error. -/
def allAcked (l : List Txn) : List (Txn × Bool) := l.map (fun t => (t, false))

/-- Is it a channel burst that completed without error? -/
def isAckedBurst : Txn × Bool → Bool
  | (.wrBuf _ _ _ _ _, false) => true
  | _ => false

/-! ## The invariant -/

/-- Which commands run through which step (40_register_driver.md R93, R95). -/
def opFits : SeqState → Nibble → Bool
  | .idle, _ => true
  | .iClr, op => isPublic op || decide (op = opInit)
  | .fRd, op => isPublic op || decide (op = opInit) || decide (op = opFreq)
  | .fSleep, op => isPublic op || decide (op = opInit) || decide (op = opFreq)
  | .fPre, op => isPublic op || decide (op = opInit) || decide (op = opFreq)
  | .fRestore, op => isPublic op || decide (op = opInit) || decide (op = opFreq)
  | .fWait, op => isPublic op || decide (op = opInit) || decide (op = opFreq)
  | .fRestart, op => isPublic op || decide (op = opInit) || decide (op = opFreq)
  | .chA, op => isPublic op || decide (op = opChpwm)
  | .chB, op => decide (op = opMotor)
  | .fault, op => isAssignedOp op

/-- Is the step one of the initialisation's, I_CLR to F_RESTART? -/
def isInitStep : SeqState → Bool
  | .iClr => true
  | .fRd => true
  | .fSleep => true
  | .fPre => true
  | .fRestore => true
  | .fWait => true
  | .fRestart => true
  | .idle => false
  | .chA => false
  | .chB => false
  | .fault => false

/-- Is it the code of a bus step? (60_exceptions.md R162 lists them.) -/
def isBusCode (c : Nibble) : Bool :=
  decide (c ∈ [0x1#4, 0x2#4, 0x3#4, 0x4#4, 0x5#4, 0x7#4, 0x8#4, 0x9#4])

/-- The step, its command and the flags agree (10_state.md R29, 41_lazy_init.md R121, R122, R124,
60_exceptions.md R160, R162). -/
abbrev FlagsAgree (e : Engine) : Prop :=
  opFits e.state e.cOp = true
  ∧ (e.err = false → e.lastOp = e.cOp)
  ∧ (e.err = true → e.state = .idle ∧ (isAssignedOp e.lastOp = false ∨ e.lastOp = opFreq))
  ∧ (e.state ≠ .idle → e.cOp = opFreq → e.cX ≠ 0#16)
  ∧ (e.fault = true ↔ e.state = .fault)
  ∧ (e.state = .fault → isBusCode e.faultStep = true)
  ∧ (e.state ≠ .fault → e.faultStep = 0#4)
  ∧ (isPublic e.cOp = true → isInitStep e.state = true → e.initDone = false)
  ∧ (isPublic e.cOp = true → e.state = .chA ∨ e.state = .chB → e.initDone = true)
  ∧ (isPublic e.cOp = true → e.state = .fault → e.initDone = decide (0x8#4 ≤ e.faultStep))

/-- The wait counter stays below WAIT_CYCLES, so within its WCNT_W bits, and is 0 outside F_WAIT
(40_register_driver.md R96). -/
abbrev WaitBounded (p : Params) (e : Engine) : Prop :=
  e.wcnt < p.waitCycles ∧ e.wcnt < 2 ^ p.wcntW ∧ (e.state ≠ .fWait → e.wcnt = 0)

/-- What the target is known to hold at each step: cleared by initialisation before the mode is read; asleep
when the prescale is written (40_register_driver.md R101); restored before the wait; and, once initialised,
with restart and auto-increment set whenever a channel may be written (41_lazy_init.md R124). -/
abbrev TargetFollows (p : Params) (m : Memory) (e : Engine) : Prop :=
  (e.state = .fRd ∨ e.state = .fSleep → e.cOp ≠ opFreq → Memory.read m p.regMode.toNat = some 0#8)
  ∧ (e.state = .fPre ∨ e.state = .fRestore →
      Memory.read m p.regMode.toNat = some ((e.oldmode &&& ~~~p.bitRestart) ||| p.bitSleep))
  ∧ (e.state = .fWait ∨ e.state = .fRestart → Memory.read m p.regMode.toNat = some e.oldmode)
  ∧ (e.state = .fRestore ∨ e.state = .fWait ∨ e.state = .fRestart →
      Memory.read m p.regPrescale.toNat = some (prescaleByte (seqHz e)))
  ∧ (e.state = .idle ∨ e.state = .chA ∨ e.state = .chB → e.initDone = true →
      modeHas p m p.bitAi = true ∧ modeHas p m p.bitRestart = true)

/-- The invariant of the machine: what holds at reset and after every edge. -/
abbrev Inv (s : State) : Prop :=
  s.params.wf ∧ Memory.wf s.target = true ∧ FlagsAgree s.eng ∧ WaitBounded s.params s.eng
  ∧ TargetFollows s.params s.target s.eng

/-! ## Comparing two machines -/

/-- The two engines agree on the operands their command reads (30_encoding.md R73). -/
abbrev sameOperands (e f : Engine) : Prop :=
  e.cOp = f.cOp
  ∧ (e.cOp = opServo → e.cId = f.cId ∧ e.cX = f.cX)
  ∧ (e.cOp = opMotor → e.cId = f.cId ∧ e.cX = f.cX ∧ e.cDir = f.cDir)
  ∧ (e.cOp = opChpwm → e.cId = f.cId ∧ e.cX = f.cX ∧ e.cY = f.cY)
  ∧ (e.cOp = opFreq → e.cX = f.cX)

/-- The two machines differ at most in latched fields that nothing will read: those the command in progress
ignores, and all of them when no command is in progress (30_encoding.md R75, 10_state.md R31(d)). -/
abbrev SameCommand (s t : State) : Prop :=
  s.params = t.params ∧ s.target = t.target ∧ s.inputs = t.inputs ∧ s.edge = t.edge
  ∧ s.eng.state = t.eng.state ∧ s.eng.oldmode = t.eng.oldmode ∧ s.eng.wcnt = t.eng.wcnt
  ∧ s.eng.initDone = t.eng.initDone ∧ s.eng.err = t.eng.err ∧ s.eng.fault = t.eng.fault
  ∧ s.eng.faultStep = t.eng.faultStep ∧ s.eng.lastOp = t.eng.lastOp
  ∧ (s.eng.state ≠ .idle → s.eng.state ≠ .fault → sameOperands s.eng t.eng)

/-- The two words agree outside the bits their command ignores (30_encoding.md R73, R75). -/
abbrev sameButIgnored (w v : Word) : Prop :=
  fieldOp w = fieldOp v
  ∧ (fieldOp w = opServo → fieldId w = fieldId v ∧ fieldX w = fieldX v)
  ∧ (fieldOp w = opMotor → fieldId w = fieldId v ∧ fieldX w = fieldX v ∧ fieldDir w = fieldDir v)
  ∧ (fieldOp w = opChpwm → fieldId w = fieldId v ∧ fieldX w = fieldX v ∧ fieldY w = fieldY v)
  ∧ (fieldOp w = opFreq → fieldX w = fieldX v)

/-- The machine with `init_done` set to `b`. -/
def withInitDone (s : State) (b : Bool) : State := s.withEng { s.eng with initDone := b }

end Sys2Proof.Machine
end

