-- ==== Sys2Proof/Certificates/Slice0/Obligations.lean ====
section
/-! DEFINITION. The statements for the provers. Each docstring names the rules of spec/ the statement
formalises; where it rests on a choice of the model it names the log entry. -/

open Sys2Proof Sys2Proof.Machine

/-! ## Encoding (30_encoding.md) -/

/-- Decoding the word of a well-formed command gives the command back, for every command and every value of
every field (30_encoding.md R70, R72, R76). -/
def Obligations.DecodeOfEncodedCommand : Prop :=
  ∀ i : Instr, i.wellFormed = true → decode (encode i) = i

/-- Encoding what a word decodes to gives the word back with its reserved bits cleared, where its OP is
assigned, and its OP alone where it is not (R70, R75; R160: "The remaining bits of the word are not
recorded"). So no bit of a legal word but RSV is dropped: that the decoded command keeps also the bits it ignores
is the model's log 16, from what acceptance latches (40_register_driver.md R93); R70 and R75 alone would let them go. -/
def Obligations.EncodeOfDecodedWord : Prop :=
  ∀ w : Word,
    (1#4 ≤ w.extractLsb' 44 4 ∧ w.extractLsb' 44 4 ≤ 5#4 →
      encode (decode w) = w &&& 0xFFFFFFFFFFF1#48)
    ∧ (w.extractLsb' 44 4 = 0#4 ∨ 6#4 ≤ w.extractLsb' 44 4 →
      encode (decode w) = w &&& 0xF00000000000#48)

/-- Words the spec writes out (95_test_vectors.md 2.1, V-E1 to V-E14) decode to their commands. Two readings are the
model's: V-E14, the same command as V-E1 to the spec, keeps its ignored Y (log 16), and V-E9, an IllegalCommand to the
spec, is a `freq` with X = 0, whose meaning takes it (log 17). -/
def Obligations.SpecWordsDecode : Prop :=
  decode 0x101005A00000#48 = .servo 1 90 0 0
  ∧ decode 0x10800B400000#48 = .servo 8 180 0 0
  ∧ decode 0x202003200000#48 = .motor 2 50 0 0
  ∧ decode 0x202006400001#48 = .motor 2 100 0 1
  ∧ decode 0x200FFCE00000#48 = .motor 0 0xFFCE 0 0
  ∧ decode 0x3FF000000000#48 = .chpwm 0xFF 0 0 0
  ∧ decode 0x30F01000FFF0#48 = .chpwm 15 0x0100 0x0FFF 0
  ∧ decode 0x400003200000#48 = .freq 0 50 0 0
  ∧ decode 0x400000000000#48 = .freq 0 0 0 0
  ∧ decode 0x500000000000#48 = .init 0 0 0 0
  ∧ decode 0x000000000000#48 = .illegal 0
  ∧ decode 0x700000000000#48 = .illegal 7
  ∧ decode 0xF12345678ABC#48 = .illegal 15
  ∧ decode 0x101005A0FFFE#48 = .servo 1 90 0x0FFF 0

/-- R74: a word offered in IDLE is illegal exactly when its OP is 0 or 6 to F, or is FREQ with X = 0. An
illegal word is consumed, issues no transaction, leaves `state` at IDLE and sets `err`; every other word is
legal: it clears `err` and starts a command. -/
def Obligations.IllegalEncodingsAreExactlyTwo : Prop :=
  ∀ (s : State) (w : Word), s.eng.state = .idle → s.sampled.rst = false → s.sampled.cmdValid = true →
    s.sampled.cmdData = w →
    let op := w.extractLsb' 44 4
    let x := w.extractLsb' 20 16
    ((op = 0#4 ∨ 6#4 ≤ op ∨ (op = 4#4 ∧ x = 0#16)) →
      ∃ t, step s = .next t ∧ t.inputs = s.inputs.tail ∧ t.eng.state = .idle ∧ t.eng.err = true
        ∧ completion s = none ∧ presented t.params t.eng = none ∧ t.target = s.target)
    ∧ (¬ (op = 0#4 ∨ 6#4 ≤ op ∨ (op = 4#4 ∧ x = 0#16)) →
      ∃ t, step s = .next t ∧ t.eng.state ≠ .idle ∧ t.eng.err = false)

/-- The assembler (R76): an operand in its range is encoded so that the decoder reads the same number back,
and every ignored field and the reserved bits are 0 (R75); an operand outside its range is refused. -/
def Obligations.AssemblerEncodesOrRefuses : Prop :=
  (∀ sid deg : Int,
    (0 ≤ sid ∧ sid ≤ 255 ∧ -32768 ≤ deg ∧ deg ≤ 32767 →
      ∃ w a d, assemble (.servo sid deg) = some w ∧ decode w = .servo a d 0 0 ∧ fieldRsv w = 0#3
        ∧ (a.toNat : Int) = sid ∧ d.toInt = deg)
    ∧ (¬ (0 ≤ sid ∧ sid ≤ 255 ∧ -32768 ≤ deg ∧ deg ≤ 32767) → assemble (.servo sid deg) = none))
  ∧ (∀ (mid spd : Int) (ccw : Bool),
    (0 ≤ mid ∧ mid ≤ 255 ∧ -32768 ≤ spd ∧ spd ≤ 32767 →
      ∃ w a v d, assemble (.motor mid ccw spd) = some w ∧ decode w = .motor a v 0 d ∧ fieldRsv w = 0#3
        ∧ (a.toNat : Int) = mid ∧ v.toInt = spd ∧ (d = 1#1 ↔ ccw = true))
    ∧ (¬ (0 ≤ mid ∧ mid ≤ 255 ∧ -32768 ≤ spd ∧ spd ≤ 32767) →
      assemble (.motor mid ccw spd) = none))
  ∧ (∀ ch on off : Int,
    (-128 ≤ ch ∧ ch ≤ 127 ∧ 0 ≤ on ∧ on ≤ 65535 ∧ 0 ≤ off ∧ off ≤ 65535 →
      ∃ w c a b, assemble (.chpwm ch on off) = some w ∧ decode w = .chpwm c a b 0 ∧ fieldRsv w = 0#3
        ∧ c.toInt = ch ∧ (a.toNat : Int) = on ∧ (b.toNat : Int) = off)
    ∧ (¬ (-128 ≤ ch ∧ ch ≤ 127 ∧ 0 ≤ on ∧ on ≤ 65535 ∧ 0 ≤ off ∧ off ≤ 65535) →
      assemble (.chpwm ch on off) = none))
  ∧ (∀ hz : Int,
    (0 ≤ hz ∧ hz ≤ 65535 →
      ∃ w h, assemble (.freq hz) = some w ∧ decode w = .freq 0 h 0 0 ∧ fieldRsv w = 0#3
        ∧ (h.toNat : Int) = hz)
    ∧ (¬ (0 ≤ hz ∧ hz ≤ 65535) → assemble (.freq hz) = none))
  ∧ assemble .init = some 0x500000000000#48
  ∧ (∀ v : Int,
    (0 ≤ v ∧ v < 2 ^ 48 → ∃ w, assemble (.word v) = some w ∧ (w.toNat : Int) = v)
    ∧ (¬ (0 ≤ v ∧ v < 2 ^ 48) → assemble (.word v) = none))

/-- R77: each pseudo-command expands to one command. STOP sends off-count 0 to both channels, PWMOFF counts
0 and 0, CENTER pulse 375. -/
def Obligations.PseudoCommandsExpandToOne : Prop :=
  (∀ mid : Int, assemble (.stop mid) = assemble (.motor mid false 0))
  ∧ plusOff (signedV 0#16 0#1) = 0 ∧ minusOff (signedV 0#16 0#1) = 0
  ∧ (∀ ch : Int, assemble (.pwmoff ch) = assemble (.chpwm ch 0 0))
  ∧ (∀ sid : Int, assemble (.center sid) = assemble (.servo sid 90))
  ∧ pulse 90 = 375

/-! ## Acceptance: every command's own effect at its edge (40_register_driver.md R93)

The spec accepts a command only in IDLE (20_memory.md R61(a), 40_register_driver.md R92). `exec` is the acceptance alone
and does not look at `state`: `step` calls it only where a command is accepted (log 22, the model's choice). So the seven
equations hold of every state. -/

/-- SERVO's acceptance, an equation in every state (log 22): the operands and `last_op` are latched, `err` is
cleared, the first step is the channel write if `init_done` = 1 and the initialisation otherwise; every other
register, the parameters and every byte of the target are unchanged (42_servo.md R132, R93, R121). -/
def Obligations.ServoAcceptance : Prop :=
  ∀ (sid : Byte) (deg y : Half) (dir : BitVec 1) (s : State),
    exec (.servo sid deg y dir) s = .next { s with
      eng := { s.eng with
        err := false, lastOp := 1#4, cOp := 1#4, cId := sid, cX := deg, cY := y, cDir := dir,
        state := if s.eng.initDone = true then .chA else .iClr } }

/-- MOTOR's acceptance likewise, an equation in every state (log 22; 43_motor.md R144, R93, R121). -/
def Obligations.MotorAcceptance : Prop :=
  ∀ (mid : Byte) (spd y : Half) (dir : BitVec 1) (s : State),
    exec (.motor mid spd y dir) s = .next { s with
      eng := { s.eng with
        err := false, lastOp := 2#4, cOp := 2#4, cId := mid, cX := spd, cY := y, cDir := dir,
        state := if s.eng.initDone = true then .chA else .iClr } }

/-- CHPWM's acceptance, an equation in every state (log 22): its step is the channel write, whatever `init_done`
(40_register_driver.md R102, R93). -/
def Obligations.ChpwmAcceptance : Prop :=
  ∀ (ch : Byte) (on off : Half) (dir : BitVec 1) (s : State),
    exec (.chpwm ch on off dir) s = .next { s with
      eng := { s.eng with
        err := false, lastOp := 3#4, cOp := 3#4, cId := ch, cX := on, cY := off, cDir := dir,
        state := .chA } }

/-- The acceptance of FREQ with hz from 1 to 65535, an equation in every state (log 22): its first step is the read of
the mode register (40_register_driver.md R100, R93). -/
def Obligations.FreqAcceptance : Prop :=
  ∀ (id : Byte) (hz y : Half) (dir : BitVec 1) (s : State), hz ≠ 0#16 →
    exec (.freq id hz y dir) s = .next { s with
      eng := { s.eng with
        err := false, lastOp := 4#4, cOp := 4#4, cId := id, cX := hz, cY := y, cDir := dir,
        state := .fRd } }

/-- FREQ with X = 0 takes IllegalCommand(0x4), an equation in every state (log 22): only `err` and `last_op` change
(30_encoding.md R74, 60_exceptions.md R160). -/
def Obligations.FreqZeroTakesIllegalCommand : Prop :=
  ∀ (id : Byte) (y : Half) (dir : BitVec 1) (s : State),
    exec (.freq id 0#16 y dir) s = .next { s with
      eng := { s.eng with err := true, lastOp := 4#4 } }

/-- INIT's acceptance, an equation in every state (log 22): its first step is the clearing of the mode register,
whatever `init_done` (40_register_driver.md R103, R93). -/
def Obligations.InitAcceptance : Prop :=
  ∀ (id : Byte) (x y : Half) (dir : BitVec 1) (s : State),
    exec (.init id x y dir) s = .next { s with
      eng := { s.eng with
        err := false, lastOp := 5#4, cOp := 5#4, cId := id, cX := x, cY := y, cDir := dir,
        state := .iClr } }

/-- An illegal word takes IllegalCommand(op), an equation in every state (log 22): only `err` and `last_op` change
(60_exceptions.md R160). -/
def Obligations.IllegalWordTakesIllegalCommand : Prop :=
  ∀ (op : Nibble) (s : State),
    exec (.illegal op) s = .next { s with eng := { s.eng with err := true, lastOp := op } }

/-! ## One edge (40_register_driver.md R92 to R96) -/

/-- In IDLE, outside reset, a step at which a word is offered runs the word's command, on the machine with
the edge's port sample used up (10_state.md R20, 40_register_driver.md R92; log 5). -/
def Obligations.StepRunsDecodedCommand : Prop :=
  ∀ (s : State) (i : Instr), s.eng.state = .idle → s.sampled.rst = false → s.sampled.cmdValid = true →
    decode s.sampled.cmdData = i →
    step s = exec i { s with inputs := s.inputs.tail, edge := s.edge + 1 }

/-- R93, on the bits of the accepted word: a legal word writes `err`, `last_op`, the five latched operands
and the first step; an illegal one `err` and `last_op` alone. Nothing is requested in the accepting cycle, and
the target is untouched. -/
def Obligations.AcceptanceOfCommandWord : Prop :=
  ∀ (s : State) (w : Word), s.eng.state = .idle → s.sampled.rst = false → s.sampled.cmdValid = true →
    s.sampled.cmdData = w →
    let op := w.extractLsb' 44 4
    let x := w.extractLsb' 20 16
    completion s = none ∧ presented s.params s.eng = none ∧
    ∃ t, step s = .next t ∧ t.target = s.target ∧ t.params = s.params ∧
      t.eng =
        if op ∈ [1#4, 2#4, 3#4, 5#4] ∨ (op = 4#4 ∧ x ≠ 0#16) then
          { s.eng with
            lastOp := op, err := false, cOp := op, cId := w.extractLsb' 36 8, cX := x,
            cY := w.extractLsb' 4 16, cDir := w.extractLsb' 0 1,
            state :=
              if op = 1#4 ∨ op = 2#4 then (if s.eng.initDone = true then .chA else .iClr)
              else if op = 3#4 then .chA
              else if op = 4#4 then .fRd
              else .iClr }
        else { s.eng with err := true, lastOp := op }

/-- The engine's holds (R92): without an offer in IDLE, without `bus_done` while a request is presented, and
always in FAULT, an edge outside reset changes no register and no byte of the target. A channel step whose
channel is out of range presents nothing and takes exactly one edge, which changes `state` alone. -/
def Obligations.HoldsAndSkippedWrites : Prop :=
  ∀ s : State, s.sampled.rst = false →
    ((s.eng.state = .idle ∧ s.sampled.cmdValid = false)
      ∨ (presented s.params s.eng ≠ none ∧ s.sampled.busDone = false) ∨ s.eng.state = .fault →
      step s = .next { s with inputs := s.inputs.tail, edge := s.edge + 1 })
    ∧ (∀ c, s.eng.state = .chA → chanA s.eng = some c → (c.ch < 0 ∨ 15 < c.ch) →
      presented s.params s.eng = none ∧
      step s = .next { s with
        inputs := s.inputs.tail, edge := s.edge + 1
        eng := { s.eng with state := if s.eng.cOp = 2#4 then .chB else .idle } })
    ∧ (∀ c, s.eng.state = .chB → chanB s.eng = some c → (c.ch < 0 ∨ 15 < c.ch) →
      presented s.params s.eng = none ∧
      step s = .next { s with
        inputs := s.inputs.tail, edge := s.edge + 1, eng := { s.eng with state := .idle } })

/-- R94 and R95: the edge at which a presented request is reported done. With `bus_err`, BusFault of the step;
without, `oldmode` takes the byte read in F_RD and the step goes to its successor with its side effects. No
other register changes. The parameters meet R5, so that `wcnt` takes WAIT_CYCLES - 1 itself. -/
def Obligations.CompletionOfBusStep : Prop :=
  ∀ s : State, s.params.wf → presented s.params s.eng ≠ none → s.sampled.rst = false →
    s.sampled.busDone = true →
    ∃ t, step s = .next t ∧ t.params = s.params ∧
      (s.sampled.busErr = true →
        t.eng = { s.eng with fault := true, faultStep := stepCode s.eng.state, state := .fault }) ∧
      (s.sampled.busErr = false →
        t.eng =
          match s.eng.state with
          | .iClr => { s.eng with state := .fRd }
          | .fRd => { s.eng with state := .fSleep, oldmode := s.sampled.busRdata }
          | .fSleep => { s.eng with state := .fPre }
          | .fPre => { s.eng with state := .fRestore }
          | .fRestore => { s.eng with state := .fWait, wcnt := s.params.waitCycles - 1 }
          | .fRestart =>
            if s.eng.cOp = 1#4 ∨ s.eng.cOp = 2#4 then { s.eng with state := .chA, initDone := true }
            else { s.eng with state := .idle }
          | .chA =>
            if s.eng.cOp = 2#4 then { s.eng with state := .chB } else { s.eng with state := .idle }
          | .chB => { s.eng with state := .idle }
          | .idle => s.eng
          | .fWait => s.eng
          | .fault => s.eng)

/-- R96: once F_RESTORE has completed, the engine is in F_WAIT for exactly WAIT_CYCLES cycles, whatever the
ports carry but reset, presenting nothing and counting `wcnt` down from WAIT_CYCLES - 1; F_RESTART is presented
in the cycle after them. WAIT_CYCLES cycles are at least 5000 microseconds. -/
def Obligations.SettlingWaitLastsWaitCycles : Prop :=
  ∀ (s : State) (o : Inputs) (l rest : List Inputs), s.params.wf → s.eng.state = .fRestore →
    s.inputs = o :: (l ++ rest) → o.rst = false → o.busDone = true → o.busErr = false →
    quiet l = true → l.length = s.params.waitCycles →
    5000 * s.params.clkHz ≤ 1000000 * s.params.waitCycles
    ∧ (∀ j, j < s.params.waitCycles → ∃ u, run (1 + j) s = .next u ∧ u.eng.state = .fWait
        ∧ u.eng.wcnt = s.params.waitCycles - 1 - j ∧ presented u.params u.eng = none)
    ∧ ∃ u, run (1 + s.params.waitCycles) s = .next u ∧ u.eng.state = .fRestart
        ∧ presented u.params u.eng
          = some (.wrReg s.params.regMode
              (s.eng.oldmode ||| s.params.bitRestart ||| s.params.bitAi))

/-- Every edge from every state has a next state, which uses up one port sample and leaves the parameters as
they are: the spec stops the machine nowhere (60_exceptions.md R163, R165, R166; log 24). -/
def Obligations.EveryEdgeHasNextState : Prop :=
  ∀ s : State, ∃ t, step s = .next t ∧ t.params = s.params ∧ t.inputs = s.inputs.tail
    ∧ t.edge = s.edge + 1

/-- Which edges write which of the thirteen registers (10_state.md R22, R27, R29), outside reset: `state` only an
acceptance of a legal command, a completion, a skipped channel write and the end of the wait; the operand registers only
the acceptance of a legal command, `oldmode` only a read that succeeds, `wcnt` only the end of F_RESTORE and the
wait, `init_done` only a successful F_RESTART of SERVO or MOTOR, `err` and `last_op` only an acceptance, `fault` and
`fault_step` only a transaction that fails. -/
def Obligations.RegistersHaveOnlyTheirWriters : Prop :=
  ∀ s t : State, s.sampled.rst = false → step s = .next t →
    (¬ (s.eng.state = .idle ∧ s.sampled.cmdValid = true ∧ (decode s.sampled.cmdData).legal = true) →
      t.eng.cOp = s.eng.cOp ∧ t.eng.cId = s.eng.cId ∧ t.eng.cX = s.eng.cX ∧ t.eng.cY = s.eng.cY
        ∧ t.eng.cDir = s.eng.cDir)
    ∧ (¬ (s.eng.state = .fRd ∧ s.sampled.busDone = true ∧ s.sampled.busErr = false) →
      t.eng.oldmode = s.eng.oldmode)
    ∧ (¬ (s.eng.state = .fRestore ∧ s.sampled.busDone = true ∧ s.sampled.busErr = false) →
      s.eng.state ≠ .fWait → t.eng.wcnt = s.eng.wcnt)
    ∧ (¬ (s.eng.state = .idle ∧ s.sampled.cmdValid = true) →
      t.eng.err = s.eng.err ∧ t.eng.lastOp = s.eng.lastOp)
    ∧ (¬ (presented s.params s.eng ≠ none ∧ s.sampled.busDone = true ∧ s.sampled.busErr = true) →
      t.eng.fault = s.eng.fault ∧ t.eng.faultStep = s.eng.faultStep)
    ∧ (¬ (s.eng.state = .fRestart ∧ (s.eng.cOp = 1#4 ∨ s.eng.cOp = 2#4) ∧ s.sampled.busDone = true
        ∧ s.sampled.busErr = false) →
      t.eng.initDone = s.eng.initDone)
    ∧ (¬ (s.eng.state = .idle ∧ s.sampled.cmdValid = true ∧ (decode s.sampled.cmdData).legal = true) →
      ¬ (presented s.params s.eng ≠ none ∧ s.sampled.busDone = true) →
      ¬ ((s.eng.state = .chA ∨ s.eng.state = .chB) ∧ presented s.params s.eng = none) →
      ¬ (s.eng.state = .fWait ∧ s.eng.wcnt = 0) →
      t.eng.state = s.eng.state)

/-! ## Ports (10_state.md R20, R21, R23) -/

/-- R23: the status word, bit by bit. -/
def Obligations.StatusWordLayout : Prop :=
  ∀ e : Engine,
    ((status e).getLsbD 0 = true ↔ e.state ≠ .idle)
    ∧ (status e).getLsbD 1 = e.initDone
    ∧ (status e).getLsbD 2 = e.err
    ∧ (status e).getLsbD 3 = e.fault
    ∧ (status e).extractLsb' 4 4 = e.lastOp
    ∧ (status e).extractLsb' 8 4 = e.faultStep
    ∧ (status e).extractLsb' 12 4 = 0#4

/-- R91: the request ports in every state, the bytes of the request at bits [8i+7:8i]; the address is 0x40
always. -/
def Obligations.RequestPortsByState : Prop :=
  ∀ (p : Params) (e : Engine) (rst : Bool),
    let r := (outputs p e rst).busReq
    let channel (c : ChanWrite) : BusReq :=
      if 0 ≤ c.ch ∧ c.ch ≤ 15 then
        ⟨true, 1, 0x40, 5,
          (BitVec.ofInt 16 c.off).extractLsb' 8 8 ++ (BitVec.ofInt 16 c.off).extractLsb' 0 8
            ++ (BitVec.ofInt 16 c.on).extractLsb' 8 8 ++ (BitVec.ofInt 16 c.on).extractLsb' 0 8
            ++ BitVec.ofInt 8 (p.regChBase.toNat + 4 * c.ch)⟩
      else ⟨false, 0, 0x40, 0, 0⟩
    match e.state with
    | .iClr => r = ⟨true, 0, 0x40, 2, 0#24 ++ 0x00#8 ++ p.regMode⟩
    | .fRd => r = ⟨true, 2, 0x40, 1, 0#32 ++ p.regMode⟩
    | .fSleep =>
      r = ⟨true, 0, 0x40, 2, 0#24 ++ ((e.oldmode &&& ~~~p.bitRestart) ||| p.bitSleep) ++ p.regMode⟩
    | .fPre => r = ⟨true, 0, 0x40, 2, 0#24 ++ prescaleByte (seqHz e) ++ p.regPrescale⟩
    | .fRestore => r = ⟨true, 0, 0x40, 2, 0#24 ++ e.oldmode ++ p.regMode⟩
    | .fRestart =>
      r = ⟨true, 0, 0x40, 2, 0#24 ++ (e.oldmode ||| p.bitRestart ||| p.bitAi) ++ p.regMode⟩
    | .chA => ∀ c, chanA e = some c → r = channel c
    | .chB => ∀ c, chanB e = some c → r = channel c
    | .idle => r = ⟨false, 0, 0x40, 0, 0⟩
    | .fWait => r = ⟨false, 0, 0x40, 0, 0⟩
    | .fault => r = ⟨false, 0, 0x40, 0, 0⟩

/-- While a request is presented and not reported done, the request ports keep their values (10_state.md, an
inference of the spec: "This holds because they are functions of registers that do not change in the meantime"). -/
def Obligations.RequestStableUntilDone : Prop :=
  ∀ s : State, presented s.params s.eng ≠ none → s.sampled.rst = false → s.sampled.busDone = false →
    ∃ t, step s = .next t ∧ busReq (presented t.params t.eng) = busReq (presented s.params s.eng)
      ∧ (busReq (presented t.params t.eng)).valid = true

/-- The ports are sampled only where R20 and R186 say: at a reset edge nothing else matters; outside reset the
bus ports matter only with `bus_done` while a request is presented, the byte read only in F_RD, and the command
ports only in IDLE, the word only with `cmd_valid`. -/
def Obligations.PortsMatterOnlyAtHandshakes : Prop :=
  ∀ (s : State) (i j : Inputs) (rest : List Inputs), s.inputs = i :: rest → i.rst = j.rst →
    (i.rst = true → step { s with inputs := j :: rest } = step s)
    ∧ (presented s.params s.eng = none → i.cmdValid = j.cmdValid → i.cmdData = j.cmdData →
      step { s with inputs := j :: rest } = step s)
    ∧ (i.cmdValid = j.cmdValid → i.cmdData = j.cmdData → i.busDone = false → j.busDone = false →
      step { s with inputs := j :: rest } = step s)
    ∧ (i = { j with busRdata := i.busRdata } → s.eng.state ≠ .fRd →
      step { s with inputs := j :: rest } = step s)
    ∧ (s.eng.state ≠ .idle → i.busDone = j.busDone → i.busErr = j.busErr → i.busRdata = j.busRdata →
      step { s with inputs := j :: rest } = step s)
    ∧ (s.eng.state = .idle → i.cmdValid = false → j.cmdValid = false →
      step { s with inputs := j :: rest } = step s)

/-- After an accepted legal word BUSY is 1 and `cmd_ready` 0 from the next cycle; after an illegal one BUSY
stays 0 and ERR is 1 from the next cycle (70_reset_and_hazards.md, an inference of the spec: "After accepting a
legal command, BUSY = 1 from the next cycle"). -/
def Obligations.StatusAfterAcceptance : Prop :=
  ∀ s : State, s.eng.state = .idle → s.sampled.rst = false → s.sampled.cmdValid = true →
    ∃ t, step s = .next t
      ∧ (status t.eng).extractLsb' 4 4 = s.sampled.cmdData.extractLsb' 44 4
      ∧ ((decode s.sampled.cmdData).legal = true →
        (status t.eng).getLsbD 0 = true ∧ (status t.eng).getLsbD 2 = false
          ∧ (outputs t.params t.eng false).cmdReady = false)
      ∧ ((decode s.sampled.cmdData).legal = false →
        (status t.eng).getLsbD 0 = false ∧ (status t.eng).getLsbD 2 = true
          ∧ (outputs t.params t.eng false).cmdReady = true)

/-! ## The arithmetic units -/

/-- R130: the servo channel is sid + 7 on the integer 0..255, in 7..262; the identifiers 1..8 give 8..15,
sid = 0 gives motor 1's plus channel, and sid >= 9 gives a channel whose write is dropped. -/
def Obligations.ServoChannels : Prop :=
  ∀ (p : Params) (sid : Byte) (on off : Int),
    servoCh sid = (sid.toNat : Int) + 7 ∧ 7 ≤ servoCh sid ∧ servoCh sid ≤ 262
    ∧ (1 ≤ sid.toNat → sid.toNat ≤ 8 → 8 ≤ servoCh sid ∧ servoCh sid ≤ 15)
    ∧ (sid = 0#8 → servoCh sid = plusCh 1#8)
    ∧ (9 ≤ sid.toNat → chanTxn p (some ⟨servoCh sid, on, off⟩) = none)

/-- R131: the pulse is the linear map from [DEG_LO, DEG_HI] to [PULSE_LO, PULSE_HI], evaluated in full and
truncated toward zero, unclamped, in [-70817, 71175] on 16-bit angles; SERVO's count is its low 16 bits. -/
def Obligations.PulseTruncatesLinearMap : Prop :=
  ∀ deg : Half,
    pulse deg.toInt = Int.tdiv (13 * deg.toInt + 1080) 6
    ∧ pulse deg.toInt
      = Int.tdiv ((deg.toInt - Config.degLo) * (Config.pulseHi - Config.pulseLo)
          + Config.pulseLo * (Config.degHi - Config.degLo)) (Config.degHi - Config.degLo)
    ∧ -70817 ≤ pulse deg.toInt ∧ pulse deg.toInt ≤ 71175
    ∧ (0 ≤ 13 * deg.toInt + 1080 → 6 * pulse deg.toInt ≤ 13 * deg.toInt + 1080
        ∧ 13 * deg.toInt + 1080 < 6 * (pulse deg.toInt + 1))
    ∧ (13 * deg.toInt + 1080 ≤ 0 → 13 * deg.toInt + 1080 ≤ 6 * pulse deg.toInt
        ∧ 6 * (pulse deg.toInt - 1) < 13 * deg.toInt + 1080)
    ∧ ∀ e : Engine, e.cOp = 1#4 → e.cX = deg →
        (chanA e).map (fun c => low16 c.off)
          = some (BitVec.ofInt 16 (Int.tdiv (13 * deg.toInt + 1080) 6))

/-- On angles from 0 to 180 the pulse is in [180, 570], does not decrease, equals the real value exactly at
multiples of 6, and its top nibble is 0 (42_servo.md section on the pulse, an inference of the spec). -/
def Obligations.PulseOnTheServoRange : Prop :=
  ∀ d e : Int, 0 ≤ d → d ≤ e → e ≤ 180 →
    180 ≤ pulse d ∧ pulse d ≤ pulse e ∧ pulse e ≤ 570
    ∧ (6 * pulse d = 13 * d + 1080 ↔ d % 6 = 0)
    ∧ (low16 (pulse d)).extractLsb' 12 4 = 0#4
    ∧ ((low16 (pulse d)).toNat : Int) = pulse d

/-- R140: the motor channel pairs, on integers that never wrap: the pairs of the identifiers 1..4, of 0, and
of 5 and above, whose writes are both dropped. -/
def Obligations.MotorChannels : Prop :=
  (∀ mid : Byte, plusCh mid = (4 - (mid.toNat : Int)) * 2 + 1 ∧ minusCh mid = (4 - (mid.toNat : Int)) * 2)
  ∧ (plusCh 1, minusCh 1) = (7, 6) ∧ (plusCh 2, minusCh 2) = (5, 4)
  ∧ (plusCh 3, minusCh 3) = (3, 2) ∧ (plusCh 4, minusCh 4) = (1, 0)
  ∧ (plusCh 0, minusCh 0) = (9, 8) ∧ servoCh 2 = plusCh 0 ∧ servoCh 1 = minusCh 0
  ∧ (∀ (p : Params) (mid : Byte) (on off : Int), 5 ≤ mid.toNat →
      plusCh mid < 0 ∧ minusCh mid < 0 ∧ chanTxn p (some ⟨plusCh mid, on, off⟩) = none
        ∧ chanTxn p (some ⟨minusCh mid, on, off⟩) = none)

/-- Every channel 0..7 is the plus or the minus channel of exactly one motor 1..4 and never both, and no servo
1..8 has one of them (43_motor.md, an inference of the spec from the pair formulas). -/
def Obligations.MotorPairsPartitionChannels : Prop :=
  ∀ ch : Int, 0 ≤ ch → ch ≤ 7 →
    (∃ mid : Byte, (1 ≤ mid.toNat ∧ mid.toNat ≤ 4 ∧ (plusCh mid = ch ∨ minusCh mid = ch))
      ∧ ∀ m : Byte, 1 ≤ m.toNat → m.toNat ≤ 4 → (plusCh m = ch ∨ minusCh m = ch) → m = mid)
    ∧ (∀ m : Byte, plusCh m ≠ minusCh m)
    ∧ ∀ sid : Byte, 1 ≤ sid.toNat → sid.toNat ≤ 8 → servoCh sid ≠ ch

/-- R141 and R142: `v` is the speed with its direction's sign, in [-32768, 32768]; the count of the active side
is the truncation of `min(4096, |v|*4096/100)`: in 0..4096, 4096 exactly from |v| = 100 on, 0 exactly at v = 0
and at least 40 otherwise. The count 4096 is sent as the bytes 0x00, 0x10. -/
def Obligations.MotorMagnitude : Prop :=
  (∀ (spd : Half) (dir : BitVec 1),
    signedV spd dir = (if dir = 0#1 then spd.toInt else - spd.toInt)
    ∧ -32768 ≤ signedV spd dir ∧ signedV spd dir ≤ 32768)
  ∧ (loByte (low16 4096) = 0x00#8 ∧ hiByte (low16 4096) = 0x10#8)
  ∧ ∀ v : Int,
    100 * mag v ≤ min 409600 (4096 * v.natAbs) ∧ min 409600 (4096 * v.natAbs) < 100 * (mag v + 1)
    ∧ mag v ≤ 4096 ∧ (mag v = 4096 ↔ 100 ≤ v.natAbs) ∧ (mag v = 0 ↔ v = 0) ∧ (v ≠ 0 → 40 ≤ mag v)

/-- R143: the H-bridge selector. In CH_A of a MOTOR the plus channel gets `mag(v)` if v <= 0 and 0 otherwise, in
CH_B the minus channel the other way round, on-counts 0; v = 0 gives 0 and 0. -/
def Obligations.MotorSideSelection : Prop :=
  ∀ e : Engine, e.cOp = 2#4 →
    let v := signedV e.cX e.cDir
    (v ≤ 0 → chanA e = some ⟨plusCh e.cId, 0, mag v⟩ ∧ chanB e = some ⟨minusCh e.cId, 0, 0⟩)
    ∧ (0 < v → chanA e = some ⟨plusCh e.cId, 0, 0⟩ ∧ chanB e = some ⟨minusCh e.cId, 0, mag v⟩)
    ∧ (v = 0 → chanA e = some ⟨plusCh e.cId, 0, 0⟩ ∧ chanB e = some ⟨minusCh e.cId, 0, 0⟩)

/-- R99: for hz from 1 to 65535 the prescale is OSC_HZ / (4096 hz) rounded to the nearest integer, less one, and
never at a tie (an inference of the spec: "An exact half never arises"); its byte wraps exactly for hz <= 23 and
hz >= 12208, where it is at least 264 and -1. The spec's listed values. -/
def Obligations.PrescaleRoundsToNearest : Prop :=
  (∀ hz : Nat, 1 ≤ hz → hz ≤ 65535 →
    let k := prescale hz + 1
    2 * (25000000 - k * (4096 * hz)) < 4096 * (hz : Int)
    ∧ 2 * (k * (4096 * hz) - 25000000) < 4096 * (hz : Int)
    ∧ ((prescaleByte hz).toNat : Int) = prescale hz % 256
    ∧ (hz ≤ 23 → 264 ≤ prescale hz)
    ∧ (24 ≤ hz → hz ≤ 12207 → 0 ≤ prescale hz ∧ prescale hz ≤ 255)
    ∧ (12208 ≤ hz → prescale hz = -1 ∧ prescaleByte hz = 0xFF#8))
  ∧ prescaleByte 60 = 0x65#8 ∧ prescaleByte 50 = 0x79#8 ∧ prescale 1000 = 5 ∧ prescale 12207 = 0
  ∧ prescale 1 = 6103 ∧ prescaleByte 1 = 0xD7#8

/-- R104: the frequency of the sequence is FREQ's X, and 60 for every other command, with byte 0x65. -/
def Obligations.SequenceFrequency : Prop :=
  ∀ e : Engine,
    (e.cOp = 4#4 → seqHz e = e.cX.toNat)
    ∧ (e.cOp ≠ 4#4 → seqHz e = 60 ∧ prescaleByte (seqHz e) = 0x65#8)

/-- R105: the mode bytes. With parameters that meet R5, the sleep byte has the sleep bit set and the restart bit
clear, the restart byte has restart and auto-increment set, and each keeps every other bit of the mode read; with
the defaults they are (m AND 0x7F) OR 0x10 and m OR 0xA0. F_RESTORE sends the mode read unchanged. -/
def Obligations.ModeBytesOfSequence : Prop :=
  ∀ (p : Params) (m : Byte), p.wf →
    sleepVal p m = ((m &&& ~~~p.bitRestart) ||| p.bitSleep)
    ∧ restartVal p m = (m ||| p.bitRestart ||| p.bitAi)
    ∧ sleepVal p m &&& p.bitSleep = p.bitSleep ∧ sleepVal p m &&& p.bitRestart = 0#8
    ∧ sleepVal p m &&& ~~~(p.bitSleep ||| p.bitRestart) = m &&& ~~~(p.bitSleep ||| p.bitRestart)
    ∧ restartVal p m &&& p.bitRestart = p.bitRestart ∧ restartVal p m &&& p.bitAi = p.bitAi
    ∧ restartVal p m &&& ~~~(p.bitRestart ||| p.bitAi) = m &&& ~~~(p.bitRestart ||| p.bitAi)
    ∧ (∀ c w l : Nat, sleepVal (Config.defaults c w l) m = ((m &&& 0x7F#8) ||| 0x10#8)
        ∧ restartVal (Config.defaults c w l) m = (m ||| 0xA0#8))
    ∧ ∀ e : Engine, e.state = .fRestore → presented p e = some (.wrReg p.regMode e.oldmode)

/-! ## Channel writes and the target (20_memory.md) -/

/-- R98: CH_A and CH_B present the channel write of their operands. A channel write in 0..15 is one burst to
REG_CH_BASE + 4*ch, which does not wrap, of the counts' low 16 bits, low byte first, with no clamp and no mask; any
other channel gives no transaction. -/
def Obligations.ChannelWriteBytes : Prop :=
  ∀ (p : Params) (c : ChanWrite), p.wf →
    (0 ≤ c.ch ∧ c.ch ≤ 15 →
      ∃ ptr b1 b2 b3 b4, chanTxn p (some c) = some (.wrBuf ptr b1 b2 b3 b4)
        ∧ (ptr.toNat : Int) = p.regChBase.toNat + 4 * c.ch
        ∧ (b1.toNat : Int) + 256 * b2.toNat = c.on % 65536
        ∧ (b3.toNat : Int) + 256 * b4.toNat = c.off % 65536)
    ∧ (c.ch < 0 ∨ 15 < c.ch → chanTxn p (some c) = none)
    ∧ ∀ e : Engine,
        (e.state = .chA → chanA e = some c → presented p e = chanTxn p (some c))
        ∧ (e.state = .chB → chanB e = some c → presented p e = chanTxn p (some c))

/-- R51: the engine reaches only the mode register, written and read, the prescale register, written, and the four
registers of a channel in 0..15, written by a burst; each has one register number of the 256. -/
def Obligations.ReachesOnlyItsTargetRegisters : Prop :=
  ∀ (p : Params) (e : Engine) (x : Txn), p.wf → presented p e = some x →
    (∀ a ∈ x.touched, a < 256)
    ∧ match x with
      | .rdReg ptr => ptr = p.regMode
      | .wrReg ptr _ => ptr = p.regMode ∨ ptr = p.regPrescale
      | .wrBuf ptr _ _ _ _ => ∃ ch : Nat, ch < 16 ∧ ptr.toNat = p.regChBase.toNat + 4 * ch
          ∧ x.touched = [ptr.toNat, ptr.toNat + 1, ptr.toNat + 2, ptr.toNat + 3]

/-- The frame of memory over every edge: a location that the presented transaction does not touch reads as
before, and where no transaction completes and reset is not driven the whole target is as before
(20_memory.md R51, R57, 70_reset_and_hazards.md R181; log 7). -/
def Obligations.EdgeTouchesOnlyPresentedLocations : Prop :=
  ∀ s t : State, s.params.wf → step s = .next t →
    (∀ a : Nat, (∀ x, presented s.params s.eng = some x → a ∉ x.touched) →
      Memory.read t.target a = Memory.read s.target a)
    ∧ (completion s = none → s.sampled.rst = false → t.target = s.target)

/-- What an acknowledged write leaves (20_memory.md R66; log 8): its bytes at consecutive locations, except that
nothing is known of the prescale register after a write with the sleep bit not known set (U1, log 11), nor of a
channel block after a burst with the auto-increment bit not known set (U4, log 10). A read leaves the target as it
is. -/
def Obligations.AcknowledgedTransactionLands : Prop :=
  ∀ (s : State) (x : Txn), s.params.wf → presented s.params s.eng = some x → s.sampled.rst = false →
    s.sampled.busDone = true → s.sampled.busErr = false →
    ∃ t, step s = .next t ∧
      match x with
      | .wrReg ptr d =>
        Memory.read t.target ptr.toNat
          = if ptr = s.params.regPrescale ∧ modeHas s.params s.target s.params.bitSleep = false then none
            else some d
      | .wrBuf ptr b1 b2 b3 b4 =>
        (modeHas s.params s.target s.params.bitAi = true →
          Memory.read t.target ptr.toNat = some b1 ∧ Memory.read t.target (ptr.toNat + 1) = some b2
            ∧ Memory.read t.target (ptr.toNat + 2) = some b3
            ∧ Memory.read t.target (ptr.toNat + 3) = some b4)
        ∧ (modeHas s.params s.target s.params.bitAi = false →
          ∀ k, k < 4 → Memory.read t.target (ptr.toNat + k) = none)
      | .rdReg _ => t.target = s.target

/-! ## The error events and reset (60_exceptions.md, 70_reset_and_hazards.md) -/

/-- R160: IllegalCommand at the accepting edge of an illegal word: `err` and `last_op` are written, the rest of
the registers and the target are not, nothing is requested; the engine is ready at the very next edge, where a legal
word or reset clears `err` and an edge without an offer keeps it. -/
def Obligations.IllegalCommandEvent : Prop :=
  ∀ s : State, s.eng.state = .idle → s.sampled.rst = false → s.sampled.cmdValid = true →
    (decode s.sampled.cmdData).legal = false →
    ∃ t, step s = .next t
      ∧ t.eng = { s.eng with err := true, lastOp := s.sampled.cmdData.extractLsb' 44 4 }
      ∧ t.target = s.target ∧ completion s = none ∧ presented t.params t.eng = none
      ∧ (status t.eng).getLsbD 2 = true
      ∧ (status t.eng).extractLsb' 4 4 = s.sampled.cmdData.extractLsb' 44 4
      ∧ (outputs t.params t.eng false).cmdReady = true
      ∧ ∃ u, step t = .next u
        ∧ (t.sampled.rst = true → u.eng.err = false)
        ∧ (t.sampled.rst = false → t.sampled.cmdValid = true →
            u.eng.err = !(decode t.sampled.cmdData).legal)
        ∧ (t.sampled.rst = false → t.sampled.cmdValid = false → u.eng.err = true)

/-- R162: BusFault at the edge where the presented transaction is reported failed: `fault`, `fault_step` and
`state` are written and no other register, `oldmode` and `init_done` included; no request is presented from then on.
LAST_OP is then the command's OP, in every state the invariant allows. What the target received are the transactions
before it: with parameters that meet R5 no location outside the failed one's changes. -/
def Obligations.BusFaultEvent : Prop :=
  ∀ (s : State) (x : Txn), presented s.params s.eng = some x → s.sampled.rst = false →
    s.sampled.busDone = true → s.sampled.busErr = true →
    s.eng.state ∈ [.iClr, .fRd, .fSleep, .fPre, .fRestore, .fRestart, .chA, .chB]
    ∧ ∃ t, step s = .next t
      ∧ t.eng = { s.eng with fault := true, faultStep := stepCode s.eng.state, state := .fault }
      ∧ (status t.eng).getLsbD 3 = true ∧ (status t.eng).extractLsb' 8 4 = stepCode s.eng.state
      ∧ (status t.eng).extractLsb' 4 4 = s.eng.lastOp
      ∧ presented t.params t.eng = none
      ∧ (Inv s → (status t.eng).extractLsb' 4 4 = s.eng.cOp ∧ t.eng.cOp = s.eng.cOp)
      ∧ (s.params.wf → ∀ a, a ∉ x.touched → Memory.read t.target a = Memory.read s.target a)

/-- What a failed transaction wrote is unknown, so each location it may have written has no known value after it: the
model's choice for 93_implementation_defined.md U6 (log 9). A failed restart write may have been performed, so after too
short a settling wait nothing at all is known of the target (U3 with U6; log 12). -/
def Obligations.FailedTransactionForgetsItsLocations : Prop :=
  ∀ (s : State) (x : Txn), presented s.params s.eng = some x → s.sampled.rst = false →
    s.sampled.busDone = true → s.sampled.busErr = true →
    ∃ t, step s = .next t ∧ (∀ a, a ∈ x.touched → Memory.read t.target a = none)
      ∧ (s.eng.state = .fRestart → ¬ s.params.settles → t.target = [])

/-- R166: in FAULT, however many edges pass without reset and whatever the ports carry, no register changes, no
command is accepted, nothing is requested and nothing completes; a reset edge leaves FAULT. -/
def Obligations.FaultLastsUntilReset : Prop :=
  ∀ s : State, s.eng.state = .fault →
    (∀ n, n ≤ s.inputs.length → quiet (s.inputs.take n) = true →
      ∃ t, run n s = .next t ∧ t.eng = s.eng ∧ t.target = s.target ∧ trace n s = []
        ∧ cmdReady t.eng false = false ∧ presented t.params t.eng = none)
    ∧ (s.sampled.rst = true → ∃ t, step s = .next t ∧ t.eng.state = .idle ∧ t.eng.fault = false)

/-- R163: an adapter that never reports done holds the engine in its bus step, with no register changed, for as
long as reset is not driven: a hang, not a fault. -/
def Obligations.UnansweredRequestHangs : Prop :=
  ∀ (s : State) (n : Nat), presented s.params s.eng ≠ none → n ≤ s.inputs.length →
    silent (s.inputs.take n) = true →
    ∃ t, run n s = .next t ∧ t.eng = s.eng ∧ t.target = s.target ∧ trace n s = []

/-- R180: an edge with `rst` = 1, in any state and whatever else the ports carry, gives every register its reset
value; `cmd_ready` is 0 while `rst` = 1, nothing completes or is accepted, and no request is presented from the next
cycle on. -/
def Obligations.ResetEdgeResetsEveryRegister : Prop :=
  ∀ s : State, s.sampled.rst = true →
    (outputs s.params s.eng true).cmdReady = false ∧ completion s = none
    ∧ ∃ t, step s = .next t
      ∧ t.eng = { state := .idle, cOp := 0#4, cId := 0#8, cX := 0#16, cY := 0#16, cDir := 0#1,
                  oldmode := 0#8, wcnt := 0, initDone := false, err := false, fault := false,
                  faultStep := 0#4, lastOp := 0#4 }
      ∧ (outputs t.params t.eng true).busReq = ⟨false, 0, 0x40, 0, 0⟩

/-- A reset edge keeps what is known of the target (R181), but for the locations of a withdrawn request, which may
have been written or not (R182, U7; log 9), and for the whole target where that request is a restart write after too
short a settling wait (U3 with U7; log 12). -/
def Obligations.ResetEdgeKeepsTarget : Prop :=
  ∀ s : State, s.sampled.rst = true → ∃ t, step s = .next t
    ∧ (presented s.params s.eng = none → t.target = s.target)
    ∧ ∀ x, presented s.params s.eng = some x →
      (∀ a, a ∈ x.touched → Memory.read t.target a = none)
      ∧ (s.eng.state ≠ .fRestart ∨ s.params.settles → ∀ a, a ∉ x.touched →
        Memory.read t.target a = Memory.read s.target a)
      ∧ (s.eng.state = .fRestart → ¬ s.params.settles → t.target = [])

/-- The registers of the reset state are those of R25's table. That `State.reset` stands for the machine right after an
edge with `rst` = 1, of which R25 speaks, is the model's log 15; `ResetEdgeResetsEveryRegister` is about the edge. -/
def Obligations.ResetValues : Prop :=
  State.reset.eng = {
    state := .idle, cOp := 0#4, cId := 0#8, cX := 0#16, cY := 0#16, cDir := 0#1, oldmode := 0#8,
    wcnt := 0, initDone := false, err := false, fault := false, faultStep := 0#4, lastOp := 0#4 }

/-! ## The invariant -/

/-- The invariant holds at reset, for every choice of parameters that meets R5, and for the one reset builds
(log 3, 4). -/
def Obligations.InvariantAtReset : Prop :=
  (∀ p : Params, p.wf → Inv (State.resetWith p)) ∧ Inv State.reset

/-- Every edge keeps the invariant, whatever the ports carry: the step, its command and the flags agree, `wcnt`
stays in its width, the target's list keeps its form, the mode register is known cleared, asleep or restored as the
sequence says, and an initialised target has restart and auto-increment set whenever a channel may be written
(10_state.md R29, R32, 40_register_driver.md R90, R95, 41_lazy_init.md R122; the target's part rests on the model's
choices of logs 7 and 8 and on the spec's inferences "The engine therefore never presents the F_PRE request unless the
F_SLEEP write of the same command has completed" and "Before any output is driven"). -/
def Obligations.EveryEdgeKeepsInvariant : Prop :=
  ∀ s t : State, Inv s → step s = .next t → Inv t

/-! ## The once-only initialisation (41_lazy_init.md) -/

/-- R120: `init_done` is 0 after reset. An edge sets it only where the F_RESTART transaction of a SERVO or MOTOR
completes without error, and clears it only with reset. -/
def Obligations.InitDoneSetAndCleared : Prop :=
  State.reset.eng.initDone = false
  ∧ ∀ s t : State, step s = .next t →
    (s.eng.initDone = false →
      (t.eng.initDone = true ↔ s.sampled.rst = false ∧ s.eng.state = .fRestart
        ∧ (s.eng.cOp = 1#4 ∨ s.eng.cOp = 2#4) ∧ s.sampled.busDone = true
        ∧ s.sampled.busErr = false))
    ∧ (s.eng.initDone = true → (t.eng.initDone = false ↔ s.sampled.rst = true))

/-- R125: the raw commands neither read nor write `init_done`: their acceptance and every edge while they run do the
same with the flag set or clear, and leave it as it is. -/
def Obligations.RawCommandsIgnoreInitDone : Prop :=
  (∀ (i : Instr) (s : State) (b : Bool), i.op = 3#4 ∨ i.op = 4#4 ∨ i.op = 5#4 → i.wellFormed = true →
    ∃ t, exec i s = .next t ∧ t.eng.initDone = s.eng.initDone
      ∧ exec i (withInitDone s b) = .next (withInitDone t b))
  ∧ ∀ (s : State) (b : Bool), s.eng.cOp = 3#4 ∨ s.eng.cOp = 4#4 ∨ s.eng.cOp = 5#4 →
    s.eng.state ≠ .idle → s.sampled.rst = false →
    ∃ t, step s = .next t ∧ t.eng.initDone = s.eng.initDone
      ∧ step (withInitDone s b) = .next (withInitDone t b)
      ∧ completion (withInitDone s b) = completion s

/-- Once only, and before any output (41_lazy_init.md, inferences of the spec): from reset, with no reset and no bus
error, whatever SERVO and MOTOR words are offered and however the adapter answers, the transactions that complete are
one initialisation sequence followed by channel bursts alone. -/
def Obligations.OnceOnlyInitialisation : Prop :=
  ∀ (p : Params) (ins : List Inputs) (n : Nat), p.wf → n ≤ ins.length →
    (∀ i ∈ ins, i.rst = false ∧ (i.busDone = true → i.busErr = false)
      ∧ (i.cmdValid = true → i.cmdData.extractLsb' 44 4 = 1#4 ∨ i.cmdData.extractLsb' 44 4 = 2#4)) →
    ∃ (m : Byte) (bursts : List (Txn × Bool)), bursts.all isAckedBurst = true
      ∧ trace n { State.resetWith p with inputs := ins } <+: allAcked (initTxns p m) ++ bursts

/-! ## Whole commands (40_register_driver.md R100 to R103, 42_servo.md R132, 43_motor.md R144) -/

/-- CHPWM from acceptance to its end: one burst if the channel is in 0..15, one edge without a request otherwise;
the counts go out unmasked; the engine is busy for exactly the edges of its step. The burst's bytes land as sent where the
auto-increment bit is known set (the model's log 8, also for counts above 4095, U2), and the block is unknown otherwise
(U4; log 10). -/
def Obligations.ChpwmRunsToItsEnd : Prop :=
  ∀ (s : State) (o : Inputs) (ch : Byte) (on off : Half) (dir : BitVec 1) (l rest : List Inputs),
    Inv s → s.eng.state = .idle → offers o (.chpwm ch on off dir) → chanServed ch.toInt l = true →
    s.inputs = o :: (l ++ rest) →
    ∃ t, run (1 + l.length) s = .next t
      ∧ t.eng = { s.eng with
          err := false, lastOp := 3#4, cOp := 3#4, cId := ch, cX := on, cY := off, cDir := dir }
      ∧ t.params = s.params ∧ t.inputs = rest
      ∧ trace (1 + l.length) s = allAcked (chanTxns s.params ch.toInt on off)
      ∧ BusyFor l.length s
      ∧ (modeHas s.params s.target s.params.bitAi = true → ∀ a, Memory.read t.target a
          = (chanCell s.params ch.toInt on off a).or (Memory.read s.target a))
      ∧ (modeHas s.params s.target s.params.bitAi = false → ∀ a, Memory.read t.target a
          = if (chanCell s.params ch.toInt on off a).isSome then none else Memory.read s.target a)

/-- FREQ from acceptance to its end: the five transactions of R100 in order, with the wait between the last two; the
engine is busy for exactly the sum of the latencies and WAIT_CYCLES; `oldmode` holds the mode read, and the target's
prescale and mode registers hold what was sent (log 8). -/
def Obligations.FreqRunsToItsEnd : Prop :=
  ∀ (s : State) (o : Inputs) (id : Byte) (hz y : Half) (dir : BitVec 1) (q : SeqSchedule)
    (rest : List Inputs),
    Inv s → s.eng.state = .idle → hz ≠ 0#16 → offers o (.freq id hz y dir) → q.ok s.params →
    s.inputs = o :: (q.flat ++ rest) →
    let m := lastByte q.rd
    let b := BitVec.ofInt 8 ((((50000000 + 4096 * hz.toNat) / (8192 * hz.toNat) : Nat) : Int) - 1)
    ∃ t, run (1 + q.flat.length) s = .next t
      ∧ t.eng = { s.eng with
          err := false, lastOp := 4#4, cOp := 4#4, cId := id, cX := hz, cY := y, cDir := dir,
          oldmode := m }
      ∧ t.params = s.params ∧ t.inputs = rest
      ∧ trace (1 + q.flat.length) s = allAcked (seqTxns s.params m b)
      ∧ BusyFor q.flat.length s
      ∧ ∀ a, Memory.read t.target a = (seqCell s.params m b a).or (Memory.read s.target a)

/-- INIT from acceptance to its end: the clearing of the mode register and the sequence of FREQ with 60 Hz;
`init_done` is not written (R103). The clause on the target's bytes rests on the model's log 8. -/
def Obligations.InitRunsToItsEnd : Prop :=
  ∀ (s : State) (o : Inputs) (id : Byte) (x y : Half) (dir : BitVec 1) (clr : List Inputs)
    (q : SeqSchedule) (rest : List Inputs),
    Inv s → s.eng.state = .idle → offers o (.init id x y dir) → acked clr = true → q.ok s.params →
    s.inputs = o :: (clr ++ (q.flat ++ rest)) →
    let m := lastByte q.rd
    let n := clr.length + q.flat.length
    ∃ t, run (1 + n) s = .next t
      ∧ t.eng = { s.eng with
          err := false, lastOp := 5#4, cOp := 5#4, cId := id, cX := x, cY := y, cDir := dir,
          oldmode := m }
      ∧ t.params = s.params ∧ t.inputs = rest
      ∧ trace (1 + n) s = allAcked (initTxns s.params m) ∧ BusyFor n s
      ∧ ∀ a, Memory.read t.target a = (seqCell s.params m 0x65#8 a).or (Memory.read s.target a)

/-- SERVO once initialised, from acceptance to its end: one burst with on-count 0 and the truncated pulse to channel
sid + 7, or one edge without a request where that is above 15 (R132). The clause on the target's bytes rests on the
model's log 8. -/
def Obligations.ServoRunsToItsEnd : Prop :=
  ∀ (s : State) (o : Inputs) (sid : Byte) (deg y : Half) (dir : BitVec 1) (l rest : List Inputs),
    Inv s → s.eng.state = .idle → s.eng.initDone = true → offers o (.servo sid deg y dir) →
    chanServed (sid.toNat + 7) l = true → s.inputs = o :: (l ++ rest) →
    let off := BitVec.ofInt 16 (Int.tdiv (13 * deg.toInt + 1080) 6)
    ∃ t, run (1 + l.length) s = .next t
      ∧ t.eng = { s.eng with
          err := false, lastOp := 1#4, cOp := 1#4, cId := sid, cX := deg, cY := y, cDir := dir }
      ∧ t.params = s.params ∧ t.inputs = rest
      ∧ trace (1 + l.length) s = allAcked (chanTxns s.params (sid.toNat + 7) 0#16 off)
      ∧ BusyFor l.length s
      ∧ ∀ a, Memory.read t.target a
          = (chanCell s.params (sid.toNat + 7) 0#16 off a).or (Memory.read s.target a)

/-- The first SERVO after reset, from acceptance to its end: the whole initialisation, then the channel write;
`init_done` is set (R132, R121, R122). The clause on the target's bytes rests on the model's log 8. -/
def Obligations.FirstServoInitialisesAndRuns : Prop :=
  ∀ (s : State) (o : Inputs) (sid : Byte) (deg y : Half) (dir : BitVec 1) (clr : List Inputs)
    (q : SeqSchedule) (l rest : List Inputs),
    Inv s → s.eng.state = .idle → s.eng.initDone = false → offers o (.servo sid deg y dir) →
    acked clr = true → q.ok s.params → chanServed (sid.toNat + 7) l = true →
    s.inputs = o :: (clr ++ (q.flat ++ (l ++ rest))) →
    let m := lastByte q.rd
    let off := BitVec.ofInt 16 (Int.tdiv (13 * deg.toInt + 1080) 6)
    let n := clr.length + q.flat.length + l.length
    ∃ t, run (1 + n) s = .next t
      ∧ t.eng = { s.eng with
          err := false, lastOp := 1#4, cOp := 1#4, cId := sid, cX := deg, cY := y, cDir := dir,
          oldmode := m, initDone := true }
      ∧ t.params = s.params ∧ t.inputs = rest
      ∧ trace (1 + n) s
        = allAcked (initTxns s.params m ++ chanTxns s.params (sid.toNat + 7) 0#16 off)
      ∧ BusyFor n s
      ∧ ∀ a, Memory.read t.target a = ((chanCell s.params (sid.toNat + 7) 0#16 off a).or
          (seqCell s.params m 0x65#8 a)).or (Memory.read s.target a)

/-- MOTOR once initialised, from acceptance to its end: the plus channel's write, then the minus channel's, each one
edge without a request where its channel is out of range; the active side gets the truncated and clamped count, the
other 0 (R144). The clause on the target's bytes rests on the model's log 8. -/
def Obligations.MotorRunsToItsEnd : Prop :=
  ∀ (s : State) (o : Inputs) (mid : Byte) (spd y : Half) (dir : BitVec 1)
    (la lb rest : List Inputs),
    Inv s → s.eng.state = .idle → s.eng.initDone = true → offers o (.motor mid spd y dir) →
    chanServed ((4 - (mid.toNat : Int)) * 2 + 1) la = true →
    chanServed ((4 - (mid.toNat : Int)) * 2) lb = true →
    s.inputs = o :: (la ++ (lb ++ rest)) →
    let v : Int := spd.toInt * (if dir = 1#1 then -1 else 1)
    let g := BitVec.ofNat 16 (if 100 ≤ v.natAbs then 4096 else v.natAbs * 1024 / 25)
    let a := if v ≤ 0 then g else 0#16
    let b := if v ≤ 0 then 0#16 else g
    let n := la.length + lb.length
    ∃ t, run (1 + n) s = .next t
      ∧ t.eng = { s.eng with
          err := false, lastOp := 2#4, cOp := 2#4, cId := mid, cX := spd, cY := y, cDir := dir }
      ∧ t.params = s.params ∧ t.inputs = rest
      ∧ trace (1 + n) s
        = allAcked (chanTxns s.params ((4 - (mid.toNat : Int)) * 2 + 1) 0#16 a
            ++ chanTxns s.params ((4 - (mid.toNat : Int)) * 2) 0#16 b)
      ∧ BusyFor n s
      ∧ ∀ k, Memory.read t.target k = ((chanCell s.params ((4 - (mid.toNat : Int)) * 2) 0#16 b k).or
          (chanCell s.params ((4 - (mid.toNat : Int)) * 2 + 1) 0#16 a k)).or (Memory.read s.target k)

/-- The first MOTOR after reset, from acceptance to its end: the whole initialisation, then the two channel writes;
`init_done` is set (R144, R121, R122). The clause on the target's bytes rests on the model's log 8. -/
def Obligations.FirstMotorInitialisesAndRuns : Prop :=
  ∀ (s : State) (o : Inputs) (mid : Byte) (spd y : Half) (dir : BitVec 1) (clr : List Inputs)
    (q : SeqSchedule) (la lb rest : List Inputs),
    Inv s → s.eng.state = .idle → s.eng.initDone = false → offers o (.motor mid spd y dir) →
    acked clr = true → q.ok s.params →
    chanServed ((4 - (mid.toNat : Int)) * 2 + 1) la = true →
    chanServed ((4 - (mid.toNat : Int)) * 2) lb = true →
    s.inputs = o :: (clr ++ (q.flat ++ (la ++ (lb ++ rest)))) →
    let m := lastByte q.rd
    let v : Int := spd.toInt * (if dir = 1#1 then -1 else 1)
    let g := BitVec.ofNat 16 (if 100 ≤ v.natAbs then 4096 else v.natAbs * 1024 / 25)
    let a := if v ≤ 0 then g else 0#16
    let b := if v ≤ 0 then 0#16 else g
    let n := clr.length + q.flat.length + la.length + lb.length
    ∃ t, run (1 + n) s = .next t
      ∧ t.eng = { s.eng with
          err := false, lastOp := 2#4, cOp := 2#4, cId := mid, cX := spd, cY := y, cDir := dir,
          oldmode := m, initDone := true }
      ∧ t.params = s.params ∧ t.inputs = rest
      ∧ trace (1 + n) s
        = allAcked (initTxns s.params m
            ++ (chanTxns s.params ((4 - (mid.toNat : Int)) * 2 + 1) 0#16 a
              ++ chanTxns s.params ((4 - (mid.toNat : Int)) * 2) 0#16 b))
      ∧ BusyFor n s
      ∧ ∀ k, Memory.read t.target k
          = (((chanCell s.params ((4 - (mid.toNat : Int)) * 2) 0#16 b k).or
              (chanCell s.params ((4 - (mid.toNat : Int)) * 2 + 1) 0#16 a k)).or
              (seqCell s.params m 0x65#8 k)).or (Memory.read s.target k)

/-! ## Ignored bits (30_encoding.md R75) -/

/-- R75: two words that differ only in ignored or reserved bits are the same command. Their acceptance gives machines
that differ at most in latched fields nothing reads, and two such machines show the same outputs and take every edge
to two such machines. -/
def Obligations.IgnoredBitsHaveNoEffect : Prop :=
  (∀ (w v : Word) (s : State), sameButIgnored w v →
    ∃ a b, exec (decode w) s = .next a ∧ exec (decode v) s = .next b ∧ SameCommand a b)
  ∧ ∀ s t : State, SameCommand s t →
    (∀ rst, outputs s.params s.eng rst = outputs t.params t.eng rst)
    ∧ completion s = completion t
    ∧ ∃ a b, step s = .next a ∧ step t = .next b ∧ SameCommand a b
end

