-- ==== Sys2Proof/Laws/Encoding.lean ====
section
/-! SUPPORT. The fields of an assembled word are what it was assembled from (30_encoding.md R70, R76). -/

namespace Sys2Proof

variable (op : Nibble) (id : Byte) (x y : Half) (dir : BitVec 1)

/-- Reading the low part of two joined fields, or the high part. -/
theorem extract_low {v w : Nat} (a : BitVec v) (b : BitVec w) (start len : Nat) (h : start + len ≤ w) :
    (a ++ b).extractLsb' start len = b.extractLsb' start len :=
  BitVec.extractLsb'_append_eq_of_add_le h

theorem extract_high {v w : Nat} (a : BitVec v) (b : BitVec w) (start len : Nat) (h : w ≤ start) :
    (a ++ b).extractLsb' start len = a.extractLsb' (start - w) len :=
  BitVec.extractLsb'_append_eq_of_le h

@[simp] theorem fieldDir_enc : fieldDir (enc op id x y dir) = dir := by
  unfold fieldDir enc
  rw [extract_low _ _ _ _ (by decide)]
  exact BitVec.extractLsb'_eq_self

@[simp] theorem fieldRsv_enc : fieldRsv (enc op id x y dir) = 0#3 := by
  unfold fieldRsv enc
  rw [extract_high _ _ _ _ (by decide), extract_low _ _ _ _ (by decide)]
  exact BitVec.extractLsb'_eq_self

@[simp] theorem fieldY_enc : fieldY (enc op id x y dir) = y := by
  unfold fieldY enc
  rw [extract_high _ _ _ _ (by decide), extract_high _ _ _ _ (by decide),
    extract_low _ _ _ _ (by decide)]
  exact BitVec.extractLsb'_eq_self

@[simp] theorem fieldX_enc : fieldX (enc op id x y dir) = x := by
  unfold fieldX enc
  rw [extract_high _ _ _ _ (by decide), extract_high _ _ _ _ (by decide),
    extract_high _ _ _ _ (by decide), extract_low _ _ _ _ (by decide)]
  exact BitVec.extractLsb'_eq_self

@[simp] theorem fieldId_enc : fieldId (enc op id x y dir) = id := by
  unfold fieldId enc
  rw [extract_high _ _ _ _ (by decide), extract_high _ _ _ _ (by decide),
    extract_high _ _ _ _ (by decide), extract_high _ _ _ _ (by decide), extract_low _ _ _ _ (by decide)]
  exact BitVec.extractLsb'_eq_self

@[simp] theorem fieldOp_enc : fieldOp (enc op id x y dir) = op := by
  unfold fieldOp enc
  rw [extract_high _ _ _ _ (by decide), extract_high _ _ _ _ (by decide),
    extract_high _ _ _ _ (by decide), extract_high _ _ _ _ (by decide), extract_high _ _ _ _ (by decide)]
  exact BitVec.extractLsb'_eq_self

end Sys2Proof
end

