-- ==== Sys2Proof/Laws/Memory.lean ====
section
/-! SUPPORT. What reading gives after each memory operation, and that each keeps the canonical form. -/

namespace Sys2Proof.Machine

/-- The canonical form of a nonempty list. -/
theorem wf_cons (c : Host.Cell) (m : Memory) :
    Memory.wf (c :: m) = true ↔ c.1 < 256 ∧ (∀ d ∈ m, c.1 < d.1) ∧ Memory.wf m = true := by
  simp [Memory.wf, and_assoc]

/-- No location below every listed one is known. -/
theorem read_below (m : Memory) (a : Nat) (h : ∀ d ∈ m, a < d.1) : Memory.read m a = none := by
  induction m with
  | nil => rfl
  | cons c t ih =>
    have hc : a < c.1 := h c (by simp)
    have ht : ∀ d ∈ t, a < d.1 := fun d hd => h d (by simp [hd])
    simp [Memory.read, ih ht]
    omega

/-- Read after write: the written location holds the byte, every other location what it held. -/
theorem read_write (m : Memory) (a b : Nat) (v : Byte) :
    Memory.read (Memory.write m a v) b = if b = a then some v else Memory.read m b := by
  induction m with
  | nil =>
    rcases eq_or_ne b a with rfl | h
    · simp [Memory.write, Memory.read]
    · simp [Memory.write, Memory.read, h, h.symm]
  | cons c t ih =>
    unfold Memory.write
    rcases eq_or_ne b a with rfl | h
    · split
      · simp [Memory.read]
      · split
        · simp [Memory.read]
        · rename_i h1 h2
          have h3 : ¬ c.1 = b := fun e => h2 e.symm
          simp [Memory.read, h3, ih]
    · split
      · simp [Memory.read, h.symm]
      · split
        · rename_i _ hac
          have h3 : ¬ c.1 = b := fun e => h (e ▸ hac.symm)
          simp [Memory.read, h.symm, h3]
        · simp [Memory.read, ih, h]

/-- Read after forgetting: the location is not known, every other location holds what it held. -/
theorem read_forget (m : Memory) (a b : Nat) :
    Memory.read (Memory.forget m a) b = if b = a then none else Memory.read m b := by
  induction m with
  | nil => simp [Memory.forget, Memory.read]
  | cons c t ih =>
    unfold Memory.forget
    rcases eq_or_ne b a with rfl | h
    · split
      · simpa using ih
      · rename_i hca
        simpa [Memory.read, hca] using ih
    · split
      · rename_i hca
        have h3 : ¬ c.1 = b := fun e => h (e ▸ hca)
        simp [Memory.read, ih, h, h3]
      · simp [Memory.read, ih, h]

/-- Read after forgetting several locations. -/
theorem read_forgetAll (as : List Nat) (m : Memory) (b : Nat) :
    Memory.read (Memory.forgetAll m as) b = if b ∈ as then none else Memory.read m b := by
  induction as generalizing m with
  | nil => simp [Memory.forgetAll]
  | cons a t ih =>
    rw [Memory.forgetAll, ih, read_forget]
    rcases eq_or_ne b a with rfl | h
    · simp
    · simp [h]

/-- A written location becomes listed, and nothing else does. -/
theorem mem_write (m : Memory) (a : Nat) (v : Byte) (d : Host.Cell)
    (h : d ∈ Memory.write m a v) : d.1 = a ∨ d ∈ m := by
  induction m with
  | nil =>
    simp [Memory.write] at h
    exact .inl (by rw [h])
  | cons c t ih =>
    unfold Memory.write at h
    split at h
    · rcases List.mem_cons.1 h with rfl | h
      · exact .inl rfl
      · exact .inr h
    · split at h
      · rcases List.mem_cons.1 h with rfl | h
        · exact .inl rfl
        · exact .inr (List.mem_cons_of_mem _ h)
      · rcases List.mem_cons.1 h with rfl | h
        · exact .inr List.mem_cons_self
        · rcases ih h with h | h
          · exact .inl h
          · exact .inr (List.mem_cons_of_mem _ h)

/-- Forgetting lists nothing new. -/
theorem mem_forget (m : Memory) (a : Nat) (d : Host.Cell) (h : d ∈ Memory.forget m a) : d ∈ m := by
  induction m with
  | nil => simp [Memory.forget] at h
  | cons c t ih =>
    unfold Memory.forget at h
    split at h
    · exact List.mem_cons_of_mem _ (ih h)
    · rcases List.mem_cons.1 h with rfl | h
      · exact List.mem_cons_self
      · exact List.mem_cons_of_mem _ (ih h)

/-- Writing keeps the canonical form. -/
theorem wf_write (m : Memory) (a : Nat) (v : Byte) (ha : a < 256) (h : Memory.wf m = true) :
    Memory.wf (Memory.write m a v) = true := by
  induction m with
  | nil => simp [Memory.write, Memory.wf, ha]
  | cons c t ih =>
    obtain ⟨hc, hct, ht⟩ := (wf_cons c t).1 h
    unfold Memory.write
    split
    · rename_i hac
      refine (wf_cons _ _).2 ⟨ha, ?_, h⟩
      intro d hd
      rcases List.mem_cons.1 hd with rfl | hd
      · exact hac
      · exact hac.trans (hct d hd)
    · split
      · rename_i _ hac
        exact (wf_cons _ _).2 ⟨ha, fun d hd => hac ▸ hct d hd, ht⟩
      · rename_i h1 h2
        refine (wf_cons _ _).2 ⟨hc, ?_, ih ht⟩
        intro d hd
        rcases mem_write t a v d hd with hd | hd
        · omega
        · exact hct d hd

/-- Forgetting keeps the canonical form. -/
theorem wf_forget (m : Memory) (a : Nat) (h : Memory.wf m = true) :
    Memory.wf (Memory.forget m a) = true := by
  induction m with
  | nil => rfl
  | cons c t ih =>
    obtain ⟨hc, hct, ht⟩ := (wf_cons c t).1 h
    unfold Memory.forget
    split
    · exact ih ht
    · exact (wf_cons _ _).2 ⟨hc, fun d hd => hct d (mem_forget t a d hd), ih ht⟩

/-- Forgetting several locations keeps the canonical form. -/
theorem wf_forgetAll (as : List Nat) (m : Memory) (h : Memory.wf m = true) :
    Memory.wf (Memory.forgetAll m as) = true := by
  induction as generalizing m with
  | nil => exact h
  | cons a t ih => exact ih _ (wf_forget m a h)

/-- A burst keeps the canonical form. -/
theorem wf_writeBurst (bs : List Byte) (m : Memory) (a : Nat) (h : Memory.wf m = true) :
    Memory.wf (Memory.writeBurst m a bs) = true := by
  induction bs generalizing m a with
  | nil => exact h
  | cons b t ih => exact ih _ _ (wf_write m (a % 256) b (Nat.mod_lt _ (by decide)) h)

/-- An acknowledged transaction keeps the canonical form. -/
theorem wf_landed (p : Params) (m : Memory) (t : Txn) (h : Memory.wf m = true) :
    Memory.wf (landed p m t) = true := by
  cases t with
  | wrReg ptr d =>
    simp only [landed]
    split
    · exact wf_forget _ _ h
    · exact wf_write _ _ _ ptr.isLt h
  | wrBuf ptr b1 b2 b3 b4 =>
    simp only [landed]
    split
    · exact wf_writeBurst _ _ _ h
    · exact wf_forgetAll _ _ h
  | rdReg ptr => exact h

/-- A failed or withdrawn transaction keeps the canonical form. -/
theorem wf_disturbed (m : Memory) (t : Txn) (h : Memory.wf m = true) :
    Memory.wf (disturbed m t) = true := wf_forgetAll _ _ h

/-- The restart write keeps the canonical form. -/
theorem wf_afterRestart (p : Params) (m : Memory) (h : Memory.wf m = true) :
    Memory.wf (afterRestart p m) = true := by
  unfold afterRestart
  split
  · exact h
  · rfl

/-- The end of a step keeps the canonical form. -/
theorem wf_afterStep (p : Params) (st : SeqState) (m : Memory) (h : Memory.wf m = true) :
    Memory.wf (afterStep p st m) = true := by
  unfold afterStep
  split
  · exact wf_afterRestart p m h
  · exact h

/-- Under R5's constraints on the settling wait a step leaves what its transaction left. -/
theorem afterStep_of_settles (p : Params) (st : SeqState) (m : Memory) (h : p.settles) :
    afterStep p st m = m := by
  simp only [afterStep, afterRestart, if_pos h, ite_self]

/-- After a restart write with the constraints on the wait broken, nothing is known of the target (U3). -/
theorem afterStep_unsettled (p : Params) (m : Memory) (h : ¬ p.settles) : afterStep p .fRestart m = [] := by
  simp only [afterStep, afterRestart, if_neg h, if_true]

/-- A step knows no more of the target than its transaction left. -/
theorem read_afterStep (p : Params) (st : SeqState) (m : Memory) (a : Nat) (v : Byte)
    (h : Memory.read (afterStep p st m) a = some v) : Memory.read m a = some v := by
  unfold afterStep afterRestart at h
  split at h
  · split at h
    · exact h
    · simp [Memory.read] at h
  · exact h

/-- The memory of the reset state has the canonical form. -/
theorem wf_reset : Memory.wf State.reset.target = true := rfl

/-- A failed or withdrawn transaction: nothing is known of what it touches, the rest is as it was. -/
theorem read_disturbed (m : Memory) (t : Txn) (a : Nat) :
    Memory.read (disturbed m t) a = if a ∈ t.touched then none else Memory.read m a :=
  read_forgetAll _ _ _

/-- An acknowledged transaction leaves every location it does not touch as it was. -/
theorem read_landed_frame (p : Params) (m : Memory) (t : Txn) (a : Nat) (h : a ∉ t.touched) :
    Memory.read (landed p m t) a = Memory.read m a := by
  cases t with
  | wrReg ptr d =>
    simp only [Txn.touched, List.mem_singleton] at h
    simp only [landed]
    split
    · simp [read_forget, h]
    · simp [read_write, h]
  | wrBuf ptr b1 b2 b3 b4 =>
    simp only [landed]
    split
    · simp only [Txn.touched, List.mem_cons, List.not_mem_nil, not_or, or_false] at h
      simp [Memory.writeBurst, read_write, h]
    · rw [read_forgetAll, if_neg h]
  | rdReg ptr => rfl

end Sys2Proof.Machine
end

