-- ==== Sys2Proof/Laws/State.lean ====
section
/-! SUPPORT. One lemma per field for every update of the state, so that no proof unfolds a record update. -/

namespace Sys2Proof.Machine

variable (s : State) (e : Engine) (m : Memory)

@[simp] theorem withEng_params : (s.withEng e).params = s.params := rfl
@[simp] theorem withEng_eng : (s.withEng e).eng = e := rfl
@[simp] theorem withEng_target : (s.withEng e).target = s.target := rfl
@[simp] theorem withEng_inputs : (s.withEng e).inputs = s.inputs := rfl
@[simp] theorem withEng_edge : (s.withEng e).edge = s.edge := rfl

@[simp] theorem withTarget_params : (s.withTarget m).params = s.params := rfl
@[simp] theorem withTarget_eng : (s.withTarget m).eng = s.eng := rfl
@[simp] theorem withTarget_target : (s.withTarget m).target = m := rfl
@[simp] theorem withTarget_inputs : (s.withTarget m).inputs = s.inputs := rfl
@[simp] theorem withTarget_edge : (s.withTarget m).edge = s.edge := rfl

@[simp] theorem consume_params : s.consume.params = s.params := rfl
@[simp] theorem consume_eng : s.consume.eng = s.eng := rfl
@[simp] theorem consume_target : s.consume.target = s.target := rfl
@[simp] theorem consume_inputs : s.consume.inputs = s.inputs.tail := rfl
@[simp] theorem consume_edge : s.consume.edge = s.edge + 1 := rfl

@[simp] theorem resetEdge_params : (resetEdge s).params = s.params := rfl
@[simp] theorem resetEdge_eng : (resetEdge s).eng = Engine.reset := rfl
@[simp] theorem resetEdge_inputs : (resetEdge s).inputs = s.inputs := rfl
@[simp] theorem resetEdge_edge : (resetEdge s).edge = s.edge := rfl

@[simp] theorem resetWith_params (p : Params) : (State.resetWith p).params = p := rfl
@[simp] theorem resetWith_eng (p : Params) : (State.resetWith p).eng = Engine.reset := rfl
@[simp] theorem resetWith_target (p : Params) : (State.resetWith p).target = [] := rfl
@[simp] theorem resetWith_inputs (p : Params) : (State.resetWith p).inputs = [] := rfl
@[simp] theorem resetWith_edge (p : Params) : (State.resetWith p).edge = 0 := rfl

variable (op : Nibble) (id : Byte) (x y : Half) (dir : BitVec 1) (first : SeqState)

@[simp] theorem acceptLegal_state : (acceptLegal op id x y dir first e).state = first := rfl
@[simp] theorem acceptLegal_cOp : (acceptLegal op id x y dir first e).cOp = op := rfl
@[simp] theorem acceptLegal_cId : (acceptLegal op id x y dir first e).cId = id := rfl
@[simp] theorem acceptLegal_cX : (acceptLegal op id x y dir first e).cX = x := rfl
@[simp] theorem acceptLegal_cY : (acceptLegal op id x y dir first e).cY = y := rfl
@[simp] theorem acceptLegal_cDir : (acceptLegal op id x y dir first e).cDir = dir := rfl
@[simp] theorem acceptLegal_oldmode : (acceptLegal op id x y dir first e).oldmode = e.oldmode := rfl
@[simp] theorem acceptLegal_wcnt : (acceptLegal op id x y dir first e).wcnt = e.wcnt := rfl
@[simp] theorem acceptLegal_initDone : (acceptLegal op id x y dir first e).initDone = e.initDone := rfl
@[simp] theorem acceptLegal_err : (acceptLegal op id x y dir first e).err = false := rfl
@[simp] theorem acceptLegal_fault : (acceptLegal op id x y dir first e).fault = e.fault := rfl
@[simp] theorem acceptLegal_faultStep :
    (acceptLegal op id x y dir first e).faultStep = e.faultStep := rfl
@[simp] theorem acceptLegal_lastOp : (acceptLegal op id x y dir first e).lastOp = op := rfl

/-- IllegalCommand writes `err` and `last_op` and nothing else (60_exceptions.md R160). -/
@[simp] theorem raiseEvent_illegalCommand :
    raiseEvent (.illegalCommand op) e = { e with err := true, lastOp := op } := rfl

/-- BusFault writes `fault`, `fault_step` and `state` and nothing else (60_exceptions.md R162). -/
@[simp] theorem raiseEvent_busFault (step : SeqState) :
    raiseEvent (.busFault step) e
      = { e with fault := true, faultStep := stepCode step, state := .fault } := rfl

/-- A scheduled sample is the one the next edge takes. -/
@[simp] theorem sampled_cons (i : Inputs) (l : List Inputs) (h : s.inputs = i :: l) :
    s.sampled = i := by
  simp [State.sampled, h]

end Sys2Proof.Machine
end

