-- ==== Sys2Proof/Laws/Ops.lean ====
section
/-! SUPPORT. What each shared operation of the engine can do, said once. -/

namespace Sys2Proof.Machine

/-! ## The presented transaction -/

/-- Only a bus step presents a transaction (40_register_driver.md R91). -/
theorem presented_isBusStep (p : Params) (e : Engine) (x : Txn) (h : presented p e = some x) :
    e.state ∈ [.iClr, .fRd, .fSleep, .fPre, .fRestore, .fRestart, .chA, .chB] := by
  unfold presented at h
  cases hs : e.state <;> simp [hs] at h ⊢

/-- A step that presents nothing is IDLE, F_WAIT, FAULT or a channel step (40_register_driver.md R91). -/
theorem presented_none_state (p : Params) (e : Engine) (h : presented p e = none) :
    e.state = .idle ∨ e.state = .fWait ∨ e.state = .fault ∨ e.state = .chA ∨ e.state = .chB := by
  unfold presented at h
  cases hs : e.state <;> simp [hs] at h ⊢

@[simp] theorem presented_idle (p : Params) (e : Engine) (h : e.state = .idle) :
    presented p e = none := by simp [presented, h]
@[simp] theorem presented_fault (p : Params) (e : Engine) (h : e.state = .fault) :
    presented p e = none := by simp [presented, h]
@[simp] theorem presented_fWait (p : Params) (e : Engine) (h : e.state = .fWait) :
    presented p e = none := by simp [presented, h]

/-- The channel range check is 0 to 15 (40_register_driver.md R97). -/
theorem inrange_iff (ch : Int) : inrange ch = true ↔ 0 ≤ ch ∧ ch ≤ 15 := by
  have h : (Config.nCh : Int) = 16 := rfl
  simp only [inrange, Bool.and_eq_true, decide_eq_true_eq]
  omega

/-- A channel in range gives its burst. -/
theorem chanTxn_inrange (p : Params) (c : ChanWrite) (h : 0 ≤ c.ch ∧ c.ch ≤ 15) :
    chanTxn p (some c) = some (chWrite p c) := by
  simp [chanTxn, (inrange_iff c.ch).2 h]

/-- A channel out of range gives no transaction. -/
theorem chanTxn_out (p : Params) (c : ChanWrite) (h : ¬ (0 ≤ c.ch ∧ c.ch ≤ 15)) :
    chanTxn p (some c) = none := by
  have hi : ¬ inrange c.ch = true := fun hi => h ((inrange_iff c.ch).1 hi)
  simp [chanTxn, hi]

/-! ## One edge: what `step` is in each of the arms of 40_register_driver.md R92 -/

theorem step_of_rst (s : State) (h : s.sampled.rst = true) : step s = .next (resetEdge s.consume) := by
  simp [step, h]

theorem step_of_offer (s : State) (h : s.sampled.rst = false) (hs : s.eng.state = .idle)
    (hv : s.sampled.cmdValid = true) : step s = exec (decode s.sampled.cmdData) s.consume := by
  simp [step, h, hs, hv]

theorem step_of_no_offer (s : State) (h : s.sampled.rst = false) (hs : s.eng.state = .idle)
    (hv : s.sampled.cmdValid = false) : step s = .next s.consume := by
  simp [step, h, hs, hv]

theorem step_of_busy (s : State) (h : s.sampled.rst = false) (hs : s.eng.state ≠ .idle) :
    step s = .next (sequencerEdge s.sampled s.consume) := by
  simp [step, h, hs]

/-! ## The sequencer -/

theorem sequencerEdge_done (inp : Inputs) (s : State) (x : Txn) (h : presented s.params s.eng = some x)
    (hd : inp.busDone = true) :
    sequencerEdge inp s = { s with
      eng := completeEng s.params inp s.eng, target := completeTarget s.params inp s.eng x s.target } := by
  simp [sequencerEdge, h, busEdge, hd]

theorem sequencerEdge_hold (inp : Inputs) (s : State) (x : Txn) (h : presented s.params s.eng = some x)
    (hd : inp.busDone = false) : sequencerEdge inp s = s := by
  simp [sequencerEdge, h, busEdge, hd]

theorem sequencerEdge_wait (inp : Inputs) (s : State) (h : s.eng.state = .fWait) :
    sequencerEdge inp s = s.withEng (waitEdge s.eng) := by
  simp [sequencerEdge, h]

theorem sequencerEdge_fault (inp : Inputs) (s : State) (h : s.eng.state = .fault) :
    sequencerEdge inp s = s := by
  simp [sequencerEdge, h]

theorem sequencerEdge_skip (inp : Inputs) (s : State) (h : s.eng.state = .chA ∨ s.eng.state = .chB)
    (hp : presented s.params s.eng = none) :
    sequencerEdge inp s = s.withEng (nextStep s.params s.eng) := by
  rcases h with h | h <;> simp [sequencerEdge, h, hp, skipEdge]

/-- Everything the sequencer can do outside IDLE: complete the presented transaction, hold, skip a channel
write, count the wait, or stay in FAULT. -/
theorem sequencerEdge_cases (inp : Inputs) (s : State) (hs : s.eng.state ≠ .idle) :
    (∃ x, presented s.params s.eng = some x ∧ inp.busDone = true ∧ sequencerEdge inp s = { s with
      eng := completeEng s.params inp s.eng
      target := completeTarget s.params inp s.eng x s.target })
    ∨ (presented s.params s.eng ≠ none ∧ inp.busDone = false ∧ sequencerEdge inp s = s)
    ∨ ((s.eng.state = .chA ∨ s.eng.state = .chB) ∧ presented s.params s.eng = none
        ∧ sequencerEdge inp s = s.withEng (nextStep s.params s.eng))
    ∨ (s.eng.state = .fWait ∧ sequencerEdge inp s = s.withEng (waitEdge s.eng))
    ∨ (s.eng.state = .fault ∧ sequencerEdge inp s = s) := by
  cases h : presented s.params s.eng with
  | some x =>
    cases hd : inp.busDone with
    | true => exact .inl ⟨x, rfl, rfl, sequencerEdge_done inp s x h hd⟩
    | false => exact .inr (.inl ⟨by simp, rfl, sequencerEdge_hold inp s x h hd⟩)
  | none =>
    rcases presented_none_state _ _ h with hi | hw | hf | hA | hB
    · exact absurd hi hs
    · exact .inr (.inr (.inr (.inl ⟨hw, sequencerEdge_wait inp s hw⟩)))
    · exact .inr (.inr (.inr (.inr ⟨hf, sequencerEdge_fault inp s hf⟩)))
    · exact .inr (.inr (.inl ⟨.inl hA, rfl, sequencerEdge_skip inp s (.inl hA) h⟩))
    · exact .inr (.inr (.inl ⟨.inr hB, rfl, sequencerEdge_skip inp s (.inr hB) h⟩))

/-- The failing completion is BusFault of the step (40_register_driver.md R94). -/
theorem completeEng_err (p : Params) (inp : Inputs) (e : Engine) (h : inp.busErr = true) :
    completeEng p inp e
      = { e with fault := true, faultStep := stepCode e.state, state := .fault } := by
  simp [completeEng, h]

/-- The successful completion of F_RD writes `oldmode` (40_register_driver.md R94). -/
theorem completeEng_fRd (p : Params) (inp : Inputs) (e : Engine) (h : inp.busErr = false)
    (hs : e.state = .fRd) :
    completeEng p inp e = { e with oldmode := inp.busRdata, state := .fSleep } := by
  simp [completeEng, h, hs, nextStep]

/-- The successful completion of every other step goes to its successor (40_register_driver.md R95). -/
theorem completeEng_ok (p : Params) (inp : Inputs) (e : Engine) (h : inp.busErr = false)
    (hs : e.state ≠ .fRd) : completeEng p inp e = nextStep p e := by
  simp [completeEng, h, hs]

/-! ## Parameters -/

/-- Under R5's constraint on WCNT_W the loaded counter is WAIT_CYCLES - 1 itself. -/
theorem wait_fits (p : Params) (h : p.wf) : p.waitCycles - 1 < 2 ^ p.wcntW := by
  have hw : Config.leastWcntW p.waitCycles ≤ p.wcntW := h.2.2.2.2.2.2.2.2.2.2.2
  have hb : Config.bitLength (p.waitCycles - 1) ≤ p.wcntW := le_trans (le_max_right _ _) hw
  by_cases h0 : p.waitCycles - 1 = 0
  · rw [h0]
    exact Nat.two_pow_pos _
  · have hl : (p.waitCycles - 1).log2 < p.wcntW := by
      simp only [Config.bitLength, h0, if_false] at hb
      omega
    exact (Nat.log2_lt h0).1 hl

/-- The least legal WAIT_CYCLES is at least 1. -/
theorem one_le_leastWait (c : Nat) : 1 ≤ Config.leastWait c := Nat.le_max_left _ _

/-- WAIT_CYCLES is at least 1 (00_scope.md R5). -/
theorem wait_pos (p : Params) (h : p.wf) : 1 ≤ p.waitCycles :=
  le_trans (one_le_leastWait p.clkHz) h.2.2.2.2.2.2.2.2.2.2.1

/-- The spec's defaults meet R5 where WAIT_CYCLES and WCNT_W do. -/
theorem defaults_wf (c w l : Nat) (hw : Config.leastWait c ≤ w) (hl : Config.leastWcntW w ≤ l) :
    (Config.defaults c w l).wf := by
  unfold Params.wf Params.inChannels Config.defaults
  dsimp only
  exact ⟨by decide, by decide, by decide, by decide, by decide, by decide, by decide, by decide,
    by decide, by decide, hw, hl⟩

/-- The parameters of reset meet R5, whatever the OPEN ones are (log 4). -/
theorem params_wf : Config.params.wf := by
  unfold Config.params
  exact defaults_wf _ _ _ (Nat.le_add_right _ _) (Nat.le_add_right _ _)

/-- The constraints on the settling wait are the last of R5's. -/
theorem settles_of_wf (p : Params) (h : p.wf) : p.settles := h.2.2.2.2.2.2.2.2.2.2

/-! ## What an edge leaves in the target -/

/-- A completion that succeeds leaves what the transaction lands, under R5. -/
theorem completeTarget_ok (p : Params) (hw : p.wf) (inp : Inputs) (h : inp.busErr = false) (e : Engine)
    (t : Txn) (m : Memory) : completeTarget p inp e t m = landed p m t := by
  simp [completeTarget, h, afterStep_of_settles _ _ _ (settles_of_wf p hw)]

/-- A completion that fails leaves nothing known of what the transaction touches, under R5. -/
theorem completeTarget_err (p : Params) (hw : p.wf) (inp : Inputs) (h : inp.busErr = true) (e : Engine)
    (t : Txn) (m : Memory) : completeTarget p inp e t m = disturbed m t := by
  simp [completeTarget, h, afterStep_of_settles _ _ _ (settles_of_wf p hw)]

/-- Every command is accepted, and its acceptance leaves everything but the engine's registers as it is. -/
theorem exec_next (i : Instr) (s : State) : ∃ e, exec i s = .next (s.withEng e) := by
  cases i with
  | servo => exact ⟨_, rfl⟩
  | motor => exact ⟨_, rfl⟩
  | chpwm => exact ⟨_, rfl⟩
  | freq id hz y dir =>
    by_cases h : hz = 0#16
    · simp only [exec, execFreq, if_pos h]
      exact ⟨_, rfl⟩
    · simp only [exec, execFreq, if_neg h]
      exact ⟨_, rfl⟩
  | init => exact ⟨_, rfl⟩
  | illegal => exact ⟨_, rfl⟩

/-- What an edge does to the target, whatever the edge: only a presented transaction that completes or that
reset withdraws changes it. -/
theorem step_target (s t : State) (h : step s = .next t) : t.target =
    match presented s.params s.eng with
    | none => s.target
    | some x =>
      if s.sampled.rst then afterStep s.params s.eng.state (disturbed s.target x)
      else if s.sampled.busDone then completeTarget s.params s.sampled s.eng x s.target
      else s.target := by
  cases hr : s.sampled.rst with
  | true =>
    rw [step_of_rst s hr] at h
    cases h
    simp only [resetEdge, consume_params, consume_eng, consume_target, if_true]
    cases presented s.params s.eng <;> rfl
  | false =>
    by_cases hi : s.eng.state = .idle
    · rw [presented_idle _ _ hi]
      cases hv : s.sampled.cmdValid with
      | true =>
        obtain ⟨e, he⟩ := exec_next (decode s.sampled.cmdData) s.consume
        rw [step_of_offer s hr hi hv, he] at h
        cases h
        rfl
      | false =>
        rw [step_of_no_offer s hr hi hv] at h
        cases h
        rfl
    · rw [step_of_busy s hr hi] at h
      cases h
      rcases sequencerEdge_cases s.sampled s.consume hi with
        ⟨x, hx, hd, e⟩ | ⟨hx, hd, e⟩ | ⟨_, hp, e⟩ | ⟨hw, e⟩ | ⟨hf, e⟩ <;> rw [e]
      · rw [consume_params, consume_eng] at hx
        simp only [hx, hd, if_true]
        rfl
      · rw [consume_params, consume_eng] at hx
        cases hq : presented s.params s.eng with
        | none => exact absurd hq hx
        | some x => simp [hd]
      · rw [consume_params, consume_eng] at hp
        simp [hp]
      · rw [consume_eng] at hw
        simp [hw]
      · rw [consume_eng] at hf
        simp [hf]

/-- A completion keeps the canonical form. -/
theorem wf_completeTarget (p : Params) (inp : Inputs) (e : Engine) (t : Txn) (m : Memory)
    (h : Memory.wf m = true) : Memory.wf (completeTarget p inp e t m) = true := by
  unfold completeTarget
  refine wf_afterStep p e.state _ ?_
  split
  · exact wf_disturbed m t h
  · exact wf_landed p m t h

/-- A reset edge keeps the canonical form. -/
theorem wf_resetEdge (s : State) (h : Memory.wf s.target = true) :
    Memory.wf (resetEdge s).target = true := by
  simp only [resetEdge]
  split
  · exact wf_afterStep _ _ _ (wf_disturbed _ _ h)
  · exact h

/-! ## Runs -/

/-- The host's run is this one. -/
theorem run_eq_core_run (n : Nat) (s : State) : Host.Core.run
    { State := State, Fault := Fault, Refusal := Refusal, step := step, reset := State.reset } n s
      = run n s := by
  induction n generalizing s with
  | zero => rfl
  | succ n ih =>
    rw [Host.Core.run, run]
    dsimp only
    cases step s with
    | next t => exact ih t
    | fault r => rfl
    | refused r => rfl

/-- A run of one edge more. -/
theorem run_succ (n : Nat) (s t : State) (h : step s = .next t) : run (n + 1) s = run n t := by
  simp [run, h]

/-- Runs compose. -/
theorem run_add (m n : Nat) (s t : State) (h : run m s = .next t) : run (m + n) s = run n t := by
  induction m generalizing s with
  | zero =>
    simp only [run, Host.Outcome.next.injEq] at h
    simp [h]
  | succ m ih =>
    rw [show m + 1 + n = (m + n) + 1 by omega]
    rw [run] at h
    cases hs : step s with
    | next u =>
      rw [hs] at h
      rw [run_succ _ _ _ hs]
      exact ih u h
    | fault r => simp [hs] at h
    | refused r => simp [hs] at h

/-- The transactions of a run of one edge more. -/
theorem trace_succ (n : Nat) (s t : State) (h : step s = .next t) :
    trace (n + 1) s = (completion s).toList ++ trace n t := by
  simp [trace, h]

/-- The transactions of composed runs. -/
theorem trace_add (m n : Nat) (s t : State) (h : run m s = .next t) :
    trace (m + n) s = trace m s ++ trace n t := by
  induction m generalizing s with
  | zero =>
    simp only [run, Host.Outcome.next.injEq] at h
    simp [h, trace]
  | succ m ih =>
    rw [show m + 1 + n = (m + n) + 1 by omega]
    rw [run] at h
    cases hs : step s with
    | next u =>
      rw [hs] at h
      rw [trace_succ _ _ _ hs, trace_succ _ _ _ hs, ih u h, List.append_assoc]
    | fault r => simp [hs] at h
    | refused r => simp [hs] at h

end Sys2Proof.Machine
end

