-- ==== Sys2Proof/Machine/Fixture.lean ====
section
/-! DEFINITION. The reference target store of 20_memory.md R66 with the adapter in front of it: "It is not part
of the engine, and it is not a claim about the real target device." The machine's own `target` is what the spec
lets be known of a real device; the fixture is the store that the spec's vectors and programs use (log 25). -/

namespace Sys2Proof.Machine

/-- The fixture (20_memory.md R66). -/
structure Fixture where
  /-- `reg`, its 256 bytes; a location that is not listed holds the default 0x00. -/
  reg : Memory := []
  /-- K, at least 1: `bus_done` = 1 at the K-th edge at which a request is presented. -/
  latency : Nat := 1
  /-- The transactions the test names as failing, by their number from 0. -/
  failing : List Nat := []
  /-- At how many edges the request of the moment has been presented without an answer. -/
  held : Nat := 0
  /-- How many transactions have been answered. -/
  answered : Nat := 0
deriving DecidableEq, Repr

/-- `reg[a]`. -/
def Fixture.byte (f : Fixture) (a : Nat) : Byte := (Memory.read f.reg a).getD 0x00#8

/-- The store after an acknowledged transaction: "The fixture stores every written byte unchanged". -/
def Fixture.store (m : Memory) : Txn → Memory
  | .wrReg ptr d => Memory.write m ptr.toNat d
  | .wrBuf ptr b1 b2 b3 b4 => Memory.writeBurst m ptr.toNat [b1, b2, b3, b4]
  | .rdReg _ => m

/-- Is this the edge at which the presented request is answered? -/
def Fixture.due (f : Fixture) : Bool := decide (f.latency ≤ f.held + 1)

/-- Does the transaction of the moment fail? -/
def Fixture.fails (f : Fixture) : Bool := decide (f.answered ∈ f.failing)

/-- `bus_rdata` for a request: `RD_REG(ptr): bus_rdata = reg[ptr]`; 0 for a write, where the engine does not read
it (10_state.md R20). -/
def Fixture.rdata (f : Fixture) : Txn → Byte
  | .rdReg ptr => f.byte ptr.toNat
  | .wrReg _ _ => 0x00#8
  | .wrBuf _ _ _ _ _ => 0x00#8

/-- The sample of an edge: the host's ports as they are, the bus ports the fixture's. -/
def Fixture.drive (f : Fixture) (req : Option Txn) (i : Inputs) : Inputs :=
  match req with
  | some t => { i with busDone := f.due, busErr := f.due && f.fails, busRdata := f.rdata t }
  | none => { i with busDone := false, busErr := false, busRdata := 0x00#8 }

/-- The fixture after an edge: "a failing transaction writes nothing". A request that reset withdraws stores nothing
either and is not counted as answered, which R66 does not say (DESIGN CHOICE, log 25). -/
def Fixture.afterEdge (f : Fixture) (req : Option Txn) (rst : Bool) : Fixture :=
  match req with
  | some t =>
    if rst then { f with held := 0 }
    else if f.due then
      { f with
        reg := if f.fails then f.reg else Fixture.store f.reg t
        held := 0
        answered := f.answered + 1 }
    else { f with held := f.held + 1 }
  | none => { f with held := 0 }

/-- The engine with the fixture on its bus. -/
structure Bench where
  fixture : Fixture
  machine : State
deriving DecidableEq, Repr

/-- The machine whose next edge samples the fixture's answer on the bus ports. -/
def Bench.wired (b : Bench) : State :=
  { b.machine with
    inputs := b.fixture.drive (presented b.machine.params b.machine.eng) b.machine.sampled
      :: b.machine.inputs.tail }

/-- One edge of the engine and the fixture together. -/
def Bench.step (b : Bench) : Host.Outcome Bench Fault Refusal :=
  match Sys2Proof.Machine.step b.wired with
  | .next t =>
    .next
      { fixture := b.fixture.afterEdge (presented b.machine.params b.machine.eng) b.machine.sampled.rst
        machine := t }
  | .fault r => .fault r
  | .refused r => .refused r

/-- Everything known of the target is what the fixture holds. -/
def Bench.agrees (b : Bench) : Prop :=
  ∀ a v, Memory.read b.machine.target a = some v → b.fixture.byte a = v

end Sys2Proof.Machine
end

