-- ==== Sys2Proof/Laws/Fixture.lean ====
section
/-! SUPPORT. The reference store refines what the machine knows of the target: every edge keeps what is known
true of the fixture (20_memory.md R66). -/

namespace Sys2Proof.Machine

/-- Every byte known in `m` is the one the store `r` holds. -/
def Covers (r m : Memory) : Prop :=
  ∀ a v, Memory.read m a = some v → (Memory.read r a).getD 0x00#8 = v

theorem covers_write (r m : Memory) (a : Nat) (b : Byte) (h : Covers r m) :
    Covers (Memory.write r a b) (Memory.write m a b) := by
  intro k v hk
  rw [read_write] at hk ⊢
  split at hk <;> rename_i hka
  · simpa [hka] using hk
  · simpa [hka] using h k v hk

theorem covers_writeBurst (bs : List Byte) (r m : Memory) (a : Nat) (h : Covers r m) :
    Covers (Memory.writeBurst r a bs) (Memory.writeBurst m a bs) := by
  induction bs generalizing r m a with
  | nil => exact h
  | cons b t ih => exact ih _ _ _ (covers_write r m (a % 256) b h)

/-- Forgetting in `m` keeps what remains known true of a store that changed only there. -/
theorem covers_frame (r r' m m' : Memory) (h : Covers r m)
    (hm : ∀ a v, Memory.read m' a = some v →
      Memory.read m a = some v ∧ Memory.read r' a = Memory.read r a) : Covers r' m' := by
  intro a v ha
  obtain ⟨h1, h2⟩ := hm a v ha
  rw [h2]
  exact h a v h1

/-- The fixture's store leaves every location the transaction does not touch as it was. -/
theorem read_store_frame (m : Memory) (t : Txn) (a : Nat) (h : a ∉ t.touched) :
    Memory.read (Fixture.store m t) a = Memory.read m a := by
  cases t with
  | wrReg ptr d =>
    simp only [Txn.touched, List.mem_singleton] at h
    rw [Fixture.store, read_write, if_neg h]
  | wrBuf ptr b1 b2 b3 b4 =>
    simp only [Txn.touched, List.mem_cons, List.not_mem_nil, or_false, not_or] at h
    simp [Fixture.store, Memory.writeBurst, read_write, h]
  | rdReg ptr => rfl

/-- An acknowledged transaction: what is known of the target after it, the fixture stores. -/
theorem covers_landed (p : Params) (r m : Memory) (t : Txn) (h : Covers r m) :
    Covers (Fixture.store r t) (landed p m t) := by
  cases t with
  | wrReg ptr d =>
    simp only [landed]
    split
    · refine covers_frame r _ m _ h fun a v ha => ?_
      rw [read_forget] at ha
      split at ha <;> rename_i hap
      · simp at ha
      · exact ⟨ha, read_store_frame r _ a (by simpa [Txn.touched] using hap)⟩
    · exact covers_write r m _ _ h
  | wrBuf ptr b1 b2 b3 b4 =>
    simp only [landed]
    split
    · exact covers_writeBurst _ r m _ h
    · refine covers_frame r _ m _ h fun a v ha => ?_
      rw [read_forgetAll] at ha
      split at ha <;> rename_i hap
      · simp at ha
      · exact ⟨ha, read_store_frame r _ a hap⟩
  | rdReg ptr => exact h

/-- A failed or withdrawn transaction, which the fixture does not store. -/
theorem covers_disturbed (r m : Memory) (t : Txn) (h : Covers r m) : Covers r (disturbed m t) := by
  refine covers_frame r r m _ h fun a v ha => ?_
  rw [read_disturbed] at ha
  split at ha
  · simp at ha
  · exact ⟨ha, rfl⟩

theorem covers_afterStep (p : Params) (st : SeqState) (r m : Memory) (h : Covers r m) :
    Covers r (afterStep p st m) :=
  fun a v ha => h a v (read_afterStep p st m a v ha)

/-- An edge at which the request `x` is presented: withdrawn by reset, answered or held. -/
theorem covers_edge (f : Fixture) (p : Params) (e : Engine) (m : Memory) (i : Inputs) (x : Txn)
    (h : Covers f.reg m) : Covers (f.afterEdge (some x) i.rst).reg
      (if (f.drive (some x) i).rst then afterStep p e.state (disturbed m x)
        else if (f.drive (some x) i).busDone then completeTarget p (f.drive (some x) i) e x m
        else m) := by
  have hdr : (f.drive (some x) i).rst = i.rst := rfl
  have hdd : (f.drive (some x) i).busDone = f.due := rfl
  have hde : (f.drive (some x) i).busErr = (f.due && f.fails) := rfl
  simp only [Fixture.afterEdge, completeTarget, hdr, hdd, hde]
  by_cases hr : i.rst = true
  · rw [if_pos hr, if_pos hr]
    exact covers_afterStep _ _ _ _ (covers_disturbed _ _ x h)
  rw [if_neg hr, if_neg hr]
  by_cases hd : f.due = true
  · rw [if_pos hd, if_pos hd, hd, Bool.true_and]
    refine covers_afterStep _ _ _ _ ?_
    by_cases hf : f.fails = true
    · simp only [if_pos hf]
      exact covers_disturbed _ _ x h
    · simp only [if_neg hf]
      exact covers_landed _ _ _ x h
  · rw [if_neg hd, if_neg hd]
    exact h

/-- The wired machine samples the fixture's answer. -/
theorem wired_sampled (b : Bench) : b.wired.sampled
    = b.fixture.drive (presented b.machine.params b.machine.eng) b.machine.sampled := rfl

/-- One edge of the bench keeps the agreement, for any parameters and whatever the host drives. -/
theorem bench_step_agrees (b c : Bench) (h : b.agrees) (hs : b.step = .next c) : c.agrees := by
  have key : ∀ t, Sys2Proof.Machine.step b.wired = .next t →
      Covers (b.fixture.afterEdge (presented b.machine.params b.machine.eng) b.machine.sampled.rst).reg
        t.target := by
    intro t ht
    rw [step_target b.wired t ht]
    have hp : presented b.wired.params b.wired.eng = presented b.machine.params b.machine.eng := rfl
    rw [hp, wired_sampled]
    cases presented b.machine.params b.machine.eng with
    | none => exact h
    | some x => exact covers_edge _ _ _ _ _ x h
  unfold Bench.step at hs
  cases hst : Sys2Proof.Machine.step b.wired with
  | next t =>
    rw [hst] at hs
    cases hs
    exact key t hst
  | fault r => rw [hst] at hs; cases hs
  | refused r => rw [hst] at hs; cases hs

end Sys2Proof.Machine
end

