-- ==== Sys2Proof/Laws/PerInstr.lean ====
section
/-! SUPPORT. What holds of every command as syntax, one lemma per constructor: the word it encodes to carries
its opcode and cleared reserved bits (30_encoding.md R72, R75, R76). -/

namespace Sys2Proof.Laws.EncodedOpcode

/-- The opcode field of a command's word is the command's opcode, and its reserved bits are 0. -/
def Statement (i : Instr) : Prop := fieldOp (encode i) = i.op ∧ fieldRsv (encode i) = 0#3

/-- The opcode and the reserved bits of an assembled word. -/
theorem of_enc (op : Nibble) (id : Byte) (x y : Half) (dir : BitVec 1) :
    fieldOp (enc op id x y dir) = op ∧ fieldRsv (enc op id x y dir) = 0#3 :=
  ⟨fieldOp_enc _ _ _ _ _, fieldRsv_enc _ _ _ _ _⟩

theorem servo (sid : Byte) (deg y : Half) (dir : BitVec 1) : Statement (.servo sid deg y dir) :=
  of_enc _ _ _ _ _
theorem motor (mid : Byte) (spd y : Half) (dir : BitVec 1) : Statement (.motor mid spd y dir) :=
  of_enc _ _ _ _ _
theorem chpwm (ch : Byte) (on off : Half) (dir : BitVec 1) : Statement (.chpwm ch on off dir) :=
  of_enc _ _ _ _ _
theorem freq (id : Byte) (hz y : Half) (dir : BitVec 1) : Statement (.freq id hz y dir) :=
  of_enc _ _ _ _ _
theorem init (id : Byte) (x y : Half) (dir : BitVec 1) : Statement (.init id x y dir) :=
  of_enc _ _ _ _ _
theorem illegal (op : Nibble) : Statement (.illegal op) :=
  of_enc _ _ _ _ _

end Sys2Proof.Laws.EncodedOpcode
end

