-- ==== Sys2Proof/Tests/Slice0.lean ====
section
/-! SUPPORT. Tests of the model against the spec's own vectors (95_test_vectors.md), and one witness for
each statement with hypotheses: a concrete machine that meets them all. -/

namespace Sys2Proof.Tests

open Sys2Proof Sys2Proof.Machine

set_option maxRecDepth 4000
set_option synthInstance.maxSize 2000

/-! ## Helpers: a machine with W = 4 (95_test_vectors.md section 3) and the port samples -/

/-- The spec's default parameters at CLK_HZ = 800, for which WAIT_CYCLES is at least 4. -/
def tp : Params := Config.defaults 800 4 2

/-- A sample at which nothing is offered, answered or reset. -/
def calm : Inputs := ⟨false, false, 0#48, false, false, 0#8⟩
/-- A sample with a word offered. -/
def offer (w : Word) : Inputs := { calm with cmdValid := true, cmdData := w }
/-- A sample at which the adapter answers without error, with a byte. -/
def done (b : Byte) : Inputs := { calm with busDone := true, busRdata := b }
/-- A sample at which the adapter reports a failed transaction. -/
def failed : Inputs := { calm with busDone := true, busErr := true }
/-- A reset edge. -/
def rstIn : Inputs := { calm with rst := true }

/-- A machine with the given engine, known target contents and coming samples. -/
def mk (e : Engine) (m : Memory) (ins : List Inputs) : State :=
  { State.resetWith tp with eng := e, target := m, inputs := ins }

/-- The engine at a step of a command with the given opcode and operands, every flag clear. -/
def eng (st : SeqState) (op : Nibble) (id : Byte) (x : Half) (dir : BitVec 1) : Engine :=
  { Engine.reset with state := st, cOp := op, lastOp := op, cId := id, cX := x, cDir := dir }

/-- The engine in FAULT after a failed F_RD of INIT. -/
def faulted : Engine :=
  { eng .fault 5#4 0#8 0#16 0#1 with fault := true, faultStep := 0x2#4 }

/-- The engine in IDLE with `init_done` = 1, and what an initialised target holds. -/
def ready : Engine := { Engine.reset with initDone := true }
/-- The mode register of an initialised target. -/
def readyMem : Memory := [(0x00, 0xA0#8), (0xFE, 0x65#8)]

/-- A schedule of the frequency sequence with latency 1. -/
def sched (m : Byte) : SeqSchedule :=
  ⟨[done m], [done 0#8], [done 0#8], [done 0#8], [calm, calm, calm, calm], [done 0#8]⟩

/-- The engine's registers after one edge. -/
def after (s : State) : Option Engine :=
  match step s with
  | .next t => some t.eng
  | .fault _ => none
  | .refused _ => none

/-- The status word after one edge. -/
def statusAfter (s : State) : Option (BitVec 16) := (after s).map status

/-- The known target contents after one edge. -/
def targetAfter (s : State) : Option Memory :=
  match step s with
  | .next t => some t.target
  | .fault _ => none
  | .refused _ => none

/-! ## WellFormed: each check refuses an ill-formed term -/

theorem test_illegal_term_with_assigned_op_refused :
    (Instr.illegal 1).wellFormed = false ∧ (Instr.illegal 2).wellFormed = false
      ∧ (Instr.illegal 3).wellFormed = false ∧ (Instr.illegal 4).wellFormed = false
      ∧ (Instr.illegal 5).wellFormed = false := by decide

theorem test_default_params_accepted : tp.wf := by decide

theorem test_params_channel_block_past_255_refused : ¬ { tp with regChBase := 0xC1#8 }.wf := by decide
theorem test_params_restart_not_one_hot_refused : ¬ { tp with bitRestart := 0xC0#8 }.wf := by decide
theorem test_params_sleep_zero_refused : ¬ { tp with bitSleep := 0x00#8 }.wf := by decide
theorem test_params_ai_not_one_hot_refused : ¬ { tp with bitAi := 0x21#8 }.wf := by decide
theorem test_params_same_restart_sleep_refused : ¬ { tp with bitSleep := 0x80#8 }.wf := by decide
theorem test_params_same_restart_ai_refused : ¬ { tp with bitAi := 0x80#8 }.wf := by decide
theorem test_params_same_sleep_ai_refused : ¬ { tp with bitAi := 0x10#8 }.wf := by decide
theorem test_params_mode_is_prescale_refused : ¬ { tp with regPrescale := 0x00#8 }.wf := by decide
theorem test_params_mode_in_channels_refused : ¬ { tp with regMode := 0x06#8 }.wf := by decide
theorem test_params_prescale_in_channels_refused : ¬ { tp with regPrescale := 0x45#8 }.wf := by decide
theorem test_params_wait_too_short_refused : ¬ { tp with waitCycles := 3 }.wf := by decide
theorem test_params_counter_too_narrow_refused : ¬ { tp with wcntW := 1 }.wf := by decide

/-! ## Decoding: words written out from 30_encoding.md R70 and R72 (V-E1 to V-E14) -/

-- {0x1, 0x01, 0x005A, 0x0000, 0b000, 0}
theorem test_decode_servo : decode 0x101005A00000#48 = .servo 0x01 0x005A 0x0000 0 := by decide
-- {0x2, 0x02, 0x0064, 0x0000, 0b000, 1}
theorem test_decode_motor : decode 0x202006400001#48 = .motor 0x02 0x0064 0x0000 1 := by decide
-- {0x3, 0x0F, 0x0100, 0x0FFF, 0b000, 0}
theorem test_decode_chpwm : decode 0x30F01000FFF0#48 = .chpwm 0x0F 0x0100 0x0FFF 0 := by decide
-- {0x4, 0x00, 0x0032, 0x0000, 0b000, 0}
theorem test_decode_freq : decode 0x400003200000#48 = .freq 0x00 0x0032 0x0000 0 := by decide
-- {0x5, 0x00, 0x0000, 0x0000, 0b000, 0}
theorem test_decode_init : decode 0x500000000000#48 = .init 0x00 0x0000 0x0000 0 := by decide
-- {0xF, 0x12, 0x3456, 0x78AB, 0b110, 0}
theorem test_decode_illegal :
    decode 0xF12345678ABC#48 = .illegal 0xF ∧ decode 0x000000000000#48 = .illegal 0x0
      ∧ decode 0x6FFFFFFFFFFF#48 = .illegal 0x6 := by decide
-- V-E14: RSV is dropped, Y and DIR are ignored but latched
theorem test_decode_drops_reserved_bits :
    decode 0x101005A0FFFE#48 = .servo 0x01 0x005A 0x0FFF 0 := by decide

theorem test_table_word_is_the_word :
    decodeTableWord 48 0x202006400001 = some (.motor 0x02 0x0064 0x0000 1)
      ∧ decodeTableWord 56 0x202006400001 = none := by decide

theorem test_assembler_vectors :
    assemble (.servo 8 180) = some 0x10800B400000#48
      ∧ assemble (.motor 0 false (-50)) = some 0x200FFCE00000#48
      ∧ assemble (.chpwm (-1) 0 0) = some 0x3FF000000000#48
      ∧ assemble (.stop 2) = some 0x202000000000#48 := by decide

/-! ## The arithmetic units (95_test_vectors.md 2.2 to 2.4) -/

-- V-S4, V-S5, V-S11 to V-S14, V-S16 to V-S18
theorem test_pulse_vectors :
    [1, 45, -6, -83, -84, -85, 1808, 32767, -32768].map pulse
      = [182, 277, 167, 0, -2, -4, 4097, 71175, -70817] := by decide

-- V-S13 and V-S18: OFF_L OFF_H
theorem test_pulse_bytes :
    low16 (pulse (-84)) = 0xFFFE#16 ∧ low16 (pulse (-32768)) = 0xEB5F#16 := by decide

-- V-M5, V-M7, V-M11, V-M14, V-M17, V-M19, V-M20: (plus off, minus off)
theorem test_motor_vectors :
    ([(2, 0), (30, 1), (99, 0), (101, 0), (-50, 1), (-32768, 1), (-32768, 0)] : List (Half × BitVec 1)).map
        (fun v => (plusOff (signedV v.1 v.2), minusOff (signedV v.1 v.2)))
      = [(0, 0x51), (0x4CC, 0), (0, 0xFD7), (0, 0x1000), (0, 0x800), (0, 0x1000), (0x1000, 0)] := by decide

-- V-F3, V-F4, V-F6, V-F8, V-F10, V-F11, V-F12
theorem test_prescale_vectors :
    [100, 200, 1526, 12208, 24, 23, 1].map prescaleByte
      = [0x3C#8, 0x1E#8, 0x03#8, 0xFF#8, 0xFD#8, 0x08#8, 0xD7#8] := by decide

-- 95_test_vectors.md 2.4: oldmode to sleep_val, restart_val
theorem test_mode_byte_vectors :
    [0x00#8, 0x11#8, 0xA0#8, 0xFF#8, 0x80#8].map (fun m => (sleepVal tp m, restartVal tp m))
      = [(0x10#8, 0xA0#8), (0x11#8, 0xB1#8), (0x30#8, 0xA0#8), (0x7F#8, 0xFF#8), (0x10#8, 0xA0#8)] := by
  decide

/-! ## One step of each command (95_test_vectors.md 2.5, 2.6 and section 3) -/

-- acceptance of V-E1 after reset: the lazy initialisation, BUSY = 1, LAST_OP = 1
theorem test_servo_first_step_initialises :
    (after (mk Engine.reset [] [offer 0x101005A00000#48])).map (fun e => (e.state, e.cId, e.cX))
      = some (.iClr, 0x01#8, 0x005A#16) := by decide

-- P1's last transaction: BUF 0x26: 00 00 77 01
theorem test_servo_burst :
    presented tp (eng .chA 1#4 0x01#8 0x005A#16 0#1) = some (.wrBuf 0x26 0x00 0x00 0x77 0x01) := by decide

-- P2, MOTOR 2, CW, 50: BUF 0x1A: 00 00 00 00 and BUF 0x16: 00 00 00 08
theorem test_motor_bursts :
    presented tp (eng .chA 2#4 0x02#8 0x0032#16 0#1) = some (.wrBuf 0x1A 0x00 0x00 0x00 0x00)
      ∧ presented tp (eng .chB 2#4 0x02#8 0x0032#16 0#1) = some (.wrBuf 0x16 0x00 0x00 0x00 0x08) := by
  decide

-- V-Q13: CH_B of MOTOR 1, CW, 50 fails with init_done = 1: status 0x092B
theorem test_motor_second_write_fails :
    statusAfter (mk { eng .chB 2#4 0x01#8 0x0032#16 0#1 with initDone := true } readyMem [failed])
      = some 0x092B#16 := by decide

-- V-C2 and V-C3: BUF 0x42: 00 01 FF 0F, BUF 0x22: 34 12 CD AB
theorem test_chpwm_bursts :
    presented tp { eng .chA 3#4 0x0F#8 0x0100#16 0#1 with cY := 0x0FFF#16 }
        = some (.wrBuf 0x42 0x00 0x01 0xFF 0x0F)
      ∧ presented tp { eng .chA 3#4 0x07#8 0x1234#16 0#1 with cY := 0xABCD#16 }
        = some (.wrBuf 0x22 0x34 0x12 0xCD 0xAB) := by decide

-- V-C4: CHPWM 16 has no request and takes one edge; status 0x0030 after (V-Q3)
theorem test_chpwm_out_of_range_skips :
    statusAfter (mk (eng .chA 3#4 0x10#8 1#16 0#1) [] [calm]) = some 0x0030#16 := by decide

-- V-Q4: FREQ 0, status 0x0044
theorem test_freq_zero_is_illegal :
    statusAfter (mk Engine.reset [] [offer 0x400000000000#48]) = some 0x0044#16 := by decide

-- P3, FREQ 50, F_RD reads 0x11; the next transaction is WR 0x00 <- 0x11
theorem test_freq_read_then_sleep :
    (after (mk (eng .fRd 4#4 0#8 0x0032#16 0#1) [] [done 0x11#8])).bind (presented tp)
      = some (.wrReg 0x00 0x11) := by decide

-- V-Q7: INIT's last transaction leaves status 0x0050, the flag not set
theorem test_init_leaves_flag_clear :
    statusAfter (mk (eng .fRestart 5#4 0#8 0#16 0#1) [] [done 0#8]) = some 0x0050#16 := by decide

-- V-Q11: F_PRE of the first SERVO fails: status 0x0419
theorem test_init_sequence_fault :
    statusAfter (mk (eng .fPre 1#4 0x08#8 0x00B4#16 0#1) [] [failed]) = some 0x0419#16 := by decide

-- V-Q2: .word 0x700000000000, status 0x0074
theorem test_illegal_word_status :
    statusAfter (mk Engine.reset [] [offer 0x700000000000#48]) = some 0x0074#16 := by decide

-- V-Q15: reset leaves FAULT, status 0x0000
theorem test_reset_leaves_fault : statusAfter (mk faulted [] [rstIn]) = some 0x0000#16 := by decide

-- the wait: wcnt = 0 ends it (40_register_driver.md R96)
theorem test_wait_ends_at_zero :
    (after (mk (eng .fWait 5#4 0#8 0#16 0#1) [] [calm])).map (·.state) = some .fRestart := by decide

-- an acknowledged burst lands at consecutive registers, auto-increment known set (20_memory.md R66)
theorem test_burst_lands :
    targetAfter (mk { eng .chA 1#4 0x01#8 0x005A#16 0#1 with initDone := true } readyMem [done 0#8])
      = some [(0x00, 0xA0#8), (0x26, 0x00#8), (0x27, 0x00#8), (0x28, 0x77#8), (0x29, 0x01#8),
          (0xFE, 0x65#8)] := by decide

/-! ## The reference target store (20_memory.md R66) -/

/-- The bytes named of the fixture's store after one edge of the engine with the fixture on its bus. -/
def storeAfter (b : Bench) (as : List Nat) : Option (List Byte) :=
  match Bench.step b with
  | .next c => some (as.map c.fixture.byte)
  | .fault _ => none
  | .refused _ => none

-- "RD_REG(ptr): bus_rdata = reg[ptr]": F_RD reads 0x11 where reg[0] = 0x11 (P3), 0x00 where nothing is stored
theorem test_fixture_read_returns_the_stored_byte :
    [[(0x00, 0x11#8)], []].map (fun (m : Memory) =>
      after (Bench.wired ⟨{ reg := m }, mk (eng .fRd 4#4 0#8 0x0032#16 0#1) [] [calm]⟩) |>.map (·.oldmode))
      = [some 0x11#8, some 0x00#8] := by decide

-- V-C2's burst 00 01 FF 0F is stored as sent whatever the mode register holds; a failing one stores nothing
theorem test_fixture_stores_every_byte_but_of_a_failing_write :
    [[], [0]].map (fun (fl : List Nat) => storeAfter
        ⟨{ failing := fl }, mk { eng .chA 3#4 0x0F#8 0x0100#16 0#1 with cY := 0x0FFF#16 } [] [calm]⟩
        [0x41, 0x42, 0x43, 0x44, 0x45])
      = [some [0x00#8, 0x00#8, 0x01#8, 0xFF#8, 0x0F#8], some [0x00#8, 0x00#8, 0x00#8, 0x00#8, 0x00#8]] := by
  decide

-- with K = 2 the request is answered at the second edge at which it is presented
theorem test_fixture_latency :
    [0, 1].map (fun n => (Bench.wired ⟨{ latency := 2, held := n },
        mk (eng .iClr 5#4 0#8 0#16 0#1) [] [calm]⟩).sampled.busDone) = [false, true] := by decide

-- the interface: withFetchWord's next step runs the word
theorem test_with_fetch_word_runs_it :
    (after (State.withFetchWord (mk Engine.reset [] []) 48 0x400003200000)).map (fun e => (e.state, e.cX))
      = some (.fRd, 0x0032#16) := by decide

-- and it does so from reset itself, whose OPEN parameters are free
theorem test_first_word_after_reset :
    (after (State.withFetchWord State.reset 48 0x101005A00000)).map (fun e => (e.state, e.cOp, e.cX))
      = some (.iClr, 1#4, 0x005A#16) := by decide

/-! ## Witnesses: a machine or operands that meet the hypotheses of each statement -/

theorem test_witness_DecodeOfEncodedCommand :
    (Instr.illegal 0).wellFormed = true ∧ (Instr.illegal 6).wellFormed = true
      ∧ (Instr.illegal 15).wellFormed = true ∧ (Instr.freq 255 0 65535 1).wellFormed = true := by decide

theorem test_witness_EncodeOfDecodedWord :
    [0x1FFFFFFFFFFF#48, 0x5FFFFFFFFFFF#48, 0x0FFFFFFFFFFF#48, 0x6FFFFFFFFFFF#48, 0xFFFFFFFFFFFF#48].map
        (fun w => w.extractLsb' 44 4) = [1#4, 5#4, 0#4, 6#4, 15#4]
      ∧ (1#4 ≤ 1#4 ∧ 1#4 ≤ 5#4) ∧ (1#4 ≤ 5#4 ∧ 5#4 ≤ 5#4) ∧ 6#4 ≤ 6#4 ∧ 6#4 ≤ 15#4 := by decide

/-- A machine in IDLE at whose next edge `w` is offered. -/
def idleWith (w : Word) : State := mk Engine.reset [] [offer w]

/-- It meets the hypotheses of every statement about an offered word, whatever the word. -/
theorem test_witness_offered_word (w : Word) :
    (idleWith w).eng.state = .idle ∧ (idleWith w).sampled.rst = false
      ∧ (idleWith w).sampled.cmdValid = true ∧ (idleWith w).sampled.cmdData = w := ⟨rfl, rfl, rfl, rfl⟩

theorem test_witness_AcceptanceOfCommandWord :
    (idleWith 0x101005A00000#48).eng.state = .idle ∧ (idleWith 0x101005A00000#48).sampled.rst = false
      ∧ (idleWith 0x101005A00000#48).sampled.cmdValid = true := ⟨rfl, rfl, rfl⟩

-- the two ends of each clause: OP 0, 6, 15 and FREQ with X = 0; OP 1, 5 and FREQ with X = 1
theorem test_witness_IllegalEncodingsAreExactlyTwo :
    [0x000000000000#48, 0x600000000000#48, 0xF00000000000#48, 0x400000000000#48, 0x100000000000#48,
        0x500000000000#48, 0x400000100000#48].map (fun w => (w.extractLsb' 44 4, w.extractLsb' 20 16))
      = [(0#4, 0#16), (6#4, 0#16), (15#4, 0#16), (4#4, 0#16), (1#4, 0#16), (5#4, 0#16), (4#4, 1#16)] := by
  decide

theorem test_witness_AssemblerEncodes :
    (0 : Int) ≤ 255 ∧ (255 : Int) ≤ 255 ∧ -32768 ≤ (-32768 : Int) ∧ (-32768 : Int) ≤ 32767 := by decide

theorem test_witness_AssemblerRefuses :
    ¬ ((0 : Int) ≤ 256 ∧ (256 : Int) ≤ 255) ∧ ¬ ((0 : Int) ≤ -1) ∧ ¬ ((32768 : Int) ≤ 32767)
      ∧ ¬ ((128 : Int) ≤ 127) ∧ ¬ ((65536 : Int) ≤ 65535) ∧ ¬ ((281474976710656 : Int) < 2 ^ 48) := by decide

theorem test_assembler_ends_of_range :
    assemble (.servo 255 (-32768)) = some 0x1FF800000000#48 ∧ assemble (.servo 256 0) = none
      ∧ assemble (.motor 0 true 32768) = none ∧ assemble (.chpwm 128 0 0) = none
      ∧ assemble (.freq (-1)) = none := by decide

theorem test_witness_FreqAcceptance : (1#16 : Half) ≠ 0#16 ∧ (65535#16 : Half) ≠ 0#16 := by decide

theorem test_witness_StepRunsDecodedCommand :
    (idleWith 0x101005A00000#48).eng.state = .idle ∧ (idleWith 0x101005A00000#48).sampled.rst = false
      ∧ (idleWith 0x101005A00000#48).sampled.cmdValid = true
      ∧ decode (idleWith 0x101005A00000#48).sampled.cmdData = .servo 1 90 0 0 := by decide

theorem test_witness_StatusAfterAcceptance :
    (decode (idleWith 0x101005A00000#48).sampled.cmdData).legal = true
      ∧ (decode (idleWith 0x400000000000#48).sampled.cmdData).legal = false := by decide

/-- Machines that hold: an idle one, one with an unanswered request, one in FAULT. -/
def holdIdle : State := mk Engine.reset [] [calm]
/-- A machine with an unanswered request. -/
def holdBus : State := mk (eng .fRd 5#4 0#8 0#16 0#1) [(0x00, 0x00#8)] [calm, calm, calm]
/-- A machine in FAULT. -/
def holdFault : State := mk faulted [] [calm, offer 0x500000000000#48, rstIn]

/-- Channel steps out of range: channels 16, -1 (CHPWM, MOTOR 5), -2 (MOTOR 5). -/
def skip16 : State := mk (eng .chA 1#4 0x09#8 0#16 0#1) [] [calm]
/-- CHPWM -1. -/
def skipMinus1 : State := mk (eng .chA 3#4 0xFF#8 0#16 0#1) [] [calm]
/-- MOTOR 5's plus channel, -1. -/
def skipPlus5 : State := mk (eng .chA 2#4 0x05#8 0#16 0#1) [] [calm]
/-- MOTOR 5's minus channel, -2. -/
def skipMinus5 : State := mk (eng .chB 2#4 0x05#8 0#16 0#1) [] [calm]

theorem test_witness_HoldsAndSkippedWrites :
    (holdIdle.sampled.rst = false ∧ holdIdle.eng.state = .idle ∧ holdIdle.sampled.cmdValid = false)
      ∧ (holdBus.sampled.rst = false ∧ presented holdBus.params holdBus.eng ≠ none
        ∧ holdBus.sampled.busDone = false)
      ∧ (holdFault.sampled.rst = false ∧ holdFault.eng.state = .fault)
      ∧ (skip16.sampled.rst = false ∧ skip16.eng.state = .chA
        ∧ (chanA skip16.eng).map (fun c => c.ch) = some 16)
      ∧ (skipMinus1.eng.state = .chA ∧ (chanA skipMinus1.eng).map (fun c => c.ch) = some (-1))
      ∧ (skipPlus5.eng.state = .chA ∧ (chanA skipPlus5.eng).map (fun c => c.ch) = some (-1))
      ∧ (skipMinus5.sampled.rst = false ∧ skipMinus5.eng.state = .chB
        ∧ (chanB skipMinus5.eng).map (fun c => c.ch) = some (-2)) := by decide

/-- The steps at which a request can be presented. -/
def busSteps : List SeqState := [.iClr, .fRd, .fSleep, .fPre, .fRestore, .fRestart, .chA, .chB]

theorem test_witness_CompletionOfBusStep : tp.wf ∧ ∀ st ∈ busSteps, ∀ i ∈ [done 0x11#8, failed],
    let s := mk (eng st 2#4 0x01#8 0#16 0#1) [] [i]
    presented s.params s.eng ≠ none ∧ s.sampled.rst = false ∧ s.sampled.busDone = true := by decide

theorem test_witness_SettlingWaitLastsWaitCycles :
    let s := mk (eng .fRestore 5#4 0#8 0#16 0#1) [] [done 0#8, calm, calm, calm, calm]
    s.params.wf ∧ s.eng.state = .fRestore
      ∧ s.inputs = done 0#8 :: ([calm, calm, calm, calm] ++ []) ∧ (done 0#8).rst = false
      ∧ (done 0#8).busDone = true ∧ (done 0#8).busErr = false
      ∧ quiet [calm, calm, calm, calm] = true
      ∧ [calm, calm, calm, calm].length = s.params.waitCycles := by decide

theorem test_witness_RegistersHaveOnlyTheirWriters :
    holdIdle.sampled.rst = false ∧ step holdIdle = .next holdIdle.consume
      ∧ ¬ (holdIdle.eng.state = .idle ∧ holdIdle.sampled.cmdValid = true)
      ∧ holdIdle.eng.state ≠ .fRd ∧ holdIdle.eng.state ≠ .fRestore ∧ holdIdle.eng.state ≠ .fWait
      ∧ holdIdle.eng.state ≠ .fRestart ∧ ¬ (holdIdle.eng.state = .chA ∨ holdIdle.eng.state = .chB)
      ∧ presented holdIdle.params holdIdle.eng = none :=
  ⟨by decide, rfl, by decide, by decide, by decide, by decide, by decide, by decide, by decide⟩

/-- F_RESTART of an INIT about to complete, where each of the two constraints on the settling wait is broken. -/
def shortWait (p : Params) (i : Inputs) : State :=
  { mk (eng .fRestart 5#4 0#8 0#16 0#1) [(0x00, 0x00#8), (0xFE, 0x65#8)] [i] with params := p }

/-- WAIT_CYCLES below its bound, and WCNT_W too narrow for WAIT_CYCLES. -/
def unsettled : List Params := [{ tp with waitCycles := 3 }, { tp with wcntW := 1 }]

-- 93_implementation_defined.md U3: the target may hold anything after such a restart write, however it ended
theorem test_short_wait_leaves_nothing_known : ∀ p ∈ unsettled, ¬ p.settles
    ∧ ∀ i ∈ [done 0#8, failed, rstIn], targetAfter (shortWait p i) = some [] := by decide

theorem test_witness_RequestPortsByState :
    (∀ id ∈ [0xFF#8, 0x00#8, 0x0F#8, 0x10#8], ∃ c, chanA (eng .chA 3#4 id 0#16 0#1) = some c)
      ∧ ∃ c, chanB (eng .chB 2#4 0x05#8 0#16 0#1) = some c := by
  refine ⟨fun id _ => ⟨_, rfl⟩, ⟨_, rfl⟩⟩

theorem test_witness_RequestStableUntilDone : presented holdBus.params holdBus.eng ≠ none
    ∧ holdBus.sampled.rst = false ∧ holdBus.sampled.busDone = false := by decide

theorem test_witness_PortsMatterOnlyAtHandshakes :
    (rstIn.rst = true ∧ rstIn.rst = { rstIn with cmdValid := true, busDone := true }.rst)
      ∧ (presented holdIdle.params holdIdle.eng = none ∧ calm.rst = failed.rst
        ∧ calm.cmdValid = failed.cmdValid ∧ calm.cmdData = failed.cmdData)
      ∧ (calm.busDone = false ∧ { calm with busErr := true }.busDone = false)
      ∧ (done 1#8 = { done 2#8 with busRdata := (done 1#8).busRdata } ∧ skip16.eng.state ≠ .fRd)
      ∧ (holdBus.eng.state ≠ .idle ∧ calm.busDone = (offer 0#48).busDone
        ∧ calm.busErr = (offer 0#48).busErr ∧ calm.busRdata = (offer 0#48).busRdata)
      ∧ (holdIdle.eng.state = .idle ∧ calm.cmdValid = false
        ∧ { calm with cmdData := 1#48 }.cmdValid = false)
      ∧ holdIdle.inputs = [calm] := by decide

theorem test_witness_arithmetic_ranges :
    ((1 : Nat) ≤ (1#8).toNat ∧ (8#8).toNat ≤ 8 ∧ 9 ≤ (9#8).toNat)
      ∧ ((0 : Int) ≤ 13 * (-83) + 1080 ∧ 13 * (-84) + 1080 ≤ (0 : Int))
      ∧ ((0 : Int) ≤ 0 ∧ (0 : Int) ≤ 180 ∧ (180 : Int) ≤ 180) ∧ 5 ≤ (5#8).toNat
      ∧ ((0 : Int) ≤ 7 ∧ (7 : Int) ≤ 7) := by decide

theorem test_witness_MotorSideSelection :
    (eng .chA 2#4 1#8 0xFFCE#16 0#1).cOp = 2#4 ∧ signedV 0xFFCE#16 0#1 ≤ 0 ∧ 0 < signedV 1#16 0#1
      ∧ signedV 0#16 1#1 = 0 := by decide

theorem test_witness_PrescaleRoundsToNearest : ∀ hz ∈ [1, 23, 24, 12207, 12208, 65535],
    1 ≤ hz ∧ hz ≤ 65535 := by decide

theorem test_witness_ChannelWriteBytes : tp.wf
    ∧ (∀ ch ∈ [(0 : Int), 15], 0 ≤ ch ∧ ch ≤ 15) ∧ ∀ ch ∈ [(-1 : Int), 16], ch < 0 ∨ 15 < ch := by decide

/-- A burst about to complete, the target initialised. -/
def burst : State :=
  mk { eng .chA 1#4 0x01#8 0x005A#16 0#1 with initDone := true } readyMem [done 0#8]

theorem test_witness_EdgeTouchesOnlyPresentedLocations :
    (burst.params.wf ∧ presented burst.params burst.eng = some (.wrBuf 0x26 0x00 0x00 0x77 0x01)
      ∧ 0x25 ∉ (Txn.wrBuf 0x26 0x00 0x00 0x77 0x01).touched
      ∧ 0x2A ∉ (Txn.wrBuf 0x26 0x00 0x00 0x77 0x01).touched)
    ∧ (holdBus.params.wf ∧ step holdBus = .next holdBus.consume ∧ completion holdBus = none
      ∧ holdBus.sampled.rst = false) :=
  ⟨by decide, by decide, rfl, by decide, by decide⟩

theorem test_witness_ReachesOnlyItsTargetRegisters :
    presented tp burst.eng = some (.wrBuf 0x26 0x00 0x00 0x77 0x01)
      ∧ presented tp { eng .chA 3#4 0x0F#8 1#16 0#1 with cY := 2#16 }
        = some (.wrBuf 0x42 0x01 0x00 0x02 0x00) := by decide

theorem test_witness_AcknowledgedTransactionLands :
    (burst.params.wf ∧ presented burst.params burst.eng ≠ none ∧ burst.sampled.rst = false
      ∧ burst.sampled.busDone = true ∧ burst.sampled.busErr = false
      ∧ modeHas burst.params burst.target burst.params.bitAi = true)
    ∧ modeHas tp [] tp.bitAi = false
    ∧ presented tp (eng .fPre 5#4 0#8 0#16 0#1) = some (.wrReg 0xFE 0x65)
    ∧ presented tp (eng .fRd 5#4 0#8 0#16 0#1) = some (.rdReg 0x00)
    ∧ modeHas tp [(0x00, 0x10#8)] tp.bitSleep = true ∧ modeHas tp readyMem tp.bitSleep = false := by decide

theorem test_witness_IllegalCommandEvent :
    ∀ i ∈ [rstIn, offer 0x500000000000#48, offer 0x000000000000#48, calm],
      let s := mk Engine.reset [] [offer 0x700000000000#48, i]
      s.eng.state = .idle ∧ s.sampled.rst = false ∧ s.sampled.cmdValid = true
        ∧ (decode s.sampled.cmdData).legal = false := by decide

theorem test_witness_BusFaultEvent : ∀ st ∈ busSteps,
    let s := mk (eng st 2#4 0x01#8 0#16 0#1) readyMem [failed]
    presented s.params s.eng ≠ none ∧ s.sampled.rst = false ∧ s.sampled.busDone = true
      ∧ s.sampled.busErr = true ∧ s.params.wf := by decide

theorem test_witness_BusFaultEvent_Inv :
    let s := { holdBus with inputs := [failed] }
    Inv s ∧ presented s.params s.eng = some (.rdReg 0x00) ∧ s.sampled.rst = false
      ∧ s.sampled.busDone = true ∧ s.sampled.busErr = true := by decide

theorem test_witness_FailedTransactionForgetsItsLocations :
    (let s := mk (eng .chA 3#4 0x0F#8 1#16 0#1) readyMem [failed]
     presented s.params s.eng = some (.wrBuf 0x42 0x01 0x00 0x00 0x00) ∧ s.sampled.rst = false
        ∧ s.sampled.busDone = true ∧ s.sampled.busErr = true)
    ∧ ∀ p ∈ unsettled,
      let s := shortWait p failed
      presented s.params s.eng = some (.wrReg 0x00 0xA0) ∧ s.sampled.rst = false
        ∧ s.sampled.busDone = true ∧ s.sampled.busErr = true ∧ s.eng.state = .fRestart
        ∧ ¬ s.params.settles := by decide

theorem test_witness_FaultLastsUntilReset :
    holdFault.eng.state = .fault ∧ 2 ≤ holdFault.inputs.length ∧ quiet (holdFault.inputs.take 2) = true
      ∧ (mk faulted [] [rstIn]).sampled.rst = true := by decide

theorem test_witness_UnansweredRequestHangs :
    presented holdBus.params holdBus.eng ≠ none ∧ 3 ≤ holdBus.inputs.length
      ∧ silent (holdBus.inputs.take 3) = true := by decide

theorem test_witness_ResetEdge :
    (mk faulted [] [rstIn]).sampled.rst = true
      ∧ presented (mk faulted [] [rstIn]).params (mk faulted [] [rstIn]).eng = none
      ∧ ({ burst with inputs := [rstIn] }).sampled.rst = true
      ∧ presented burst.params burst.eng = some (.wrBuf 0x26 0x00 0x00 0x77 0x01)
      ∧ burst.eng.state ≠ .fRestart ∧ (shortWait tp rstIn).params.settles
      ∧ ∀ p ∈ unsettled,
        let s := shortWait p rstIn
        s.sampled.rst = true ∧ presented s.params s.eng = some (.wrReg 0x00 0xA0)
          ∧ s.eng.state = .fRestart ∧ ¬ s.params.settles := by decide

theorem test_witness_InvariantAtReset : tp.wf := by decide

/-- The invariant holds in machines at different steps, in FAULT and after an illegal word. -/
theorem test_witness_Inv :
    Inv burst ∧ Inv holdIdle ∧ Inv holdBus ∧ Inv holdFault ∧ Inv (idleWith 0x500000000000#48)
      ∧ Inv (mk { eng .fPre 4#4 0#8 1#16 0#1 with oldmode := 0x11#8 } [(0x00, 0x11#8)] [done 0#8]) := by
  decide

theorem test_witness_EveryEdgeKeepsInvariant : Inv holdIdle ∧ step holdIdle = .next holdIdle.consume :=
  ⟨by decide, rfl⟩

theorem test_witness_InitDoneSetAndCleared :
    (holdIdle.eng.initDone = false ∧ step holdIdle = .next holdIdle.consume)
      ∧ (mk ready readyMem [calm]).eng.initDone = true
      ∧ step (mk ready readyMem [calm]) = .next (mk ready readyMem [calm]).consume :=
  ⟨⟨rfl, rfl⟩, rfl, rfl⟩

theorem test_witness_RawCommandsIgnoreInitDone :
    (∀ i ∈ [Instr.chpwm 0 0 0 0, .freq 0 1 0 0, .init 0 0 0 0],
      (i.op = 3#4 ∨ i.op = 4#4 ∨ i.op = 5#4) ∧ i.wellFormed = true)
    ∧ (holdBus.eng.cOp = 5#4 ∧ holdBus.eng.state ≠ .idle ∧ holdBus.sampled.rst = false) := by decide

theorem test_witness_OnceOnlyInitialisation :
    tp.wf ∧ 2 ≤ [offer 0x101005A00000#48, done 0#8].length
      ∧ ∀ i ∈ [offer 0x101005A00000#48, done 0#8], i.rst = false ∧ (i.busDone = true → i.busErr = false)
        ∧ (i.cmdValid = true →
            i.cmdData.extractLsb' 44 4 = 1#4 ∨ i.cmdData.extractLsb' 44 4 = 2#4) := by decide

-- channels in range (0, 15) and out of range (-1, 16), the target initialised or not
theorem test_witness_ChpwmRunsToItsEnd :
    ∀ c ∈ [(0x00#8, [calm, done 0#8]), (0x0F#8, [done 0#8]), (0xFF#8, [calm]), (0x10#8, [calm])],
      let o := offer (encode (.chpwm c.1 1 2 0))
      let s := mk Engine.reset [] (o :: (c.2 ++ []))
      let t := mk ready readyMem (o :: (c.2 ++ []))
      Inv s ∧ Inv t ∧ s.eng.state = .idle ∧ t.eng.state = .idle ∧ offers o (.chpwm c.1 1 2 0)
        ∧ chanServed c.1.toInt c.2 = true ∧ modeHas s.params s.target s.params.bitAi = false
        ∧ modeHas t.params t.target t.params.bitAi = true := by decide

theorem test_witness_FreqRunsToItsEnd :
    let o := offer 0x400003200000#48
    let s := mk Engine.reset [] (o :: ((sched 0x11#8).flat ++ []))
    Inv s ∧ s.eng.state = .idle ∧ (50#16 : Half) ≠ 0#16 ∧ offers o (.freq 0 50 0 0)
      ∧ (sched 0x11#8).ok s.params ∧ s.inputs = o :: ((sched 0x11#8).flat ++ []) := by decide

theorem test_witness_InitRunsToItsEnd :
    let o := offer 0x500000000000#48
    let s := mk Engine.reset [] (o :: ([done 0#8] ++ ((sched 0x11#8).flat ++ [])))
    Inv s ∧ s.eng.state = .idle ∧ offers o (.init 0 0 0 0) ∧ acked [done 0#8] = true
      ∧ (sched 0x11#8).ok s.params := by decide

-- servo 0 (channel 7), 8 (channel 15) and 9 (channel 16, dropped)
theorem test_witness_ServoRunsToItsEnd :
    ∀ c ∈ [(0x00#8, [calm, done 0#8]), (0x08#8, [done 0#8]), (0x09#8, [calm])],
      let o := offer (encode (.servo c.1 90 0 0))
      let s := mk ready readyMem (o :: (c.2 ++ []))
      Inv s ∧ s.eng.state = .idle ∧ s.eng.initDone = true ∧ offers o (.servo c.1 90 0 0)
        ∧ chanServed (c.1.toNat + 7) c.2 = true := by decide

theorem test_witness_FirstServoInitialisesAndRuns :
    let o := offer 0x101005A00000#48
    let s := mk Engine.reset []
      (o :: ([done 0#8] ++ ((sched 0#8).flat ++ ([calm, done 0#8] ++ []))))
    Inv s ∧ s.eng.state = .idle ∧ s.eng.initDone = false ∧ offers o (.servo 1 90 0 0)
      ∧ acked [done 0#8] = true ∧ (sched 0#8).ok s.params
      ∧ chanServed ((1#8 : Byte).toNat + 7) [calm, done 0#8] = true := by decide

-- motors 0 and 4 (channels 9, 8 and 1, 0) and 5 (channels -1, -2, dropped)
theorem test_witness_MotorRunsToItsEnd :
    ∀ c ∈ [(0x00#8, [calm, done 0#8]), (0x04#8, [done 0#8]), (0x05#8, [calm])],
      let o := offer (encode (.motor c.1 50 0 1))
      let s := mk ready readyMem (o :: (c.2 ++ (c.2 ++ [])))
      Inv s ∧ s.eng.state = .idle ∧ s.eng.initDone = true ∧ offers o (.motor c.1 50 0 1)
        ∧ chanServed ((4 - (c.1.toNat : Int)) * 2 + 1) c.2 = true
        ∧ chanServed ((4 - (c.1.toNat : Int)) * 2) c.2 = true := by decide

theorem test_witness_FirstMotorInitialisesAndRuns :
    let o := offer 0x202003200000#48
    let s := mk Engine.reset []
      (o :: ([done 0#8] ++ ((sched 0#8).flat ++ ([done 0#8] ++ ([done 0#8] ++ [])))))
    Inv s ∧ s.eng.state = .idle ∧ s.eng.initDone = false ∧ offers o (.motor 2 50 0 0)
      ∧ acked [done 0#8] = true ∧ (sched 0#8).ok s.params
      ∧ chanServed ((4 - ((2#8 : Byte).toNat : Int)) * 2 + 1) [done 0#8] = true
      ∧ chanServed ((4 - ((2#8 : Byte).toNat : Int)) * 2) [done 0#8] = true := by decide

-- V-E14 against V-E1, and two machines that differ in what SERVO ignores
theorem test_witness_IgnoredBitsHaveNoEffect :
    sameButIgnored 0x101005A0FFFE#48 0x101005A00000#48
      ∧ SameCommand burst { burst with eng := { burst.eng with cY := 0x0FFF#16, cDir := 1#1 } } := by decide

end Sys2Proof.Tests
end

section
/-! The fields of the status word are the registers it is joined from (10_state.md R23). -/

namespace Sys2Proof.Machine

/-- BUSY is set in every state but IDLE, FAULT included. -/
@[simp] theorem busy_iff (e : Engine) : busy e = true ↔ e.state ≠ .idle := by
  simp [busy]

/-! ## The four flags, bits 3 to 0 -/

/-- The flag joined last is bit 0. -/
theorem getLsbD_append_ofBool_zero {w : Nat} (v : BitVec w) (b : Bool) :
    (v ++ BitVec.ofBool b).getLsbD 0 = b := by
  simp [BitVec.getElem_append]

/-- The flag joined last moves every other bit up by one place. -/
theorem getLsbD_append_ofBool_succ {w : Nat} (v : BitVec w) (b : Bool) (i : Nat) :
    (v ++ BitVec.ofBool b).getLsbD (i + 1) = v.getLsbD i := by
  simp [BitVec.getLsbD_append]

theorem status_bit_busy (e : Engine) : (status e).getLsbD 0 = busy e :=
  getLsbD_append_ofBool_zero _ _

theorem status_bit_initDone (e : Engine) : (status e).getLsbD 1 = e.initDone := by
  unfold status
  rw [getLsbD_append_ofBool_succ, getLsbD_append_ofBool_zero]

theorem status_bit_err (e : Engine) : (status e).getLsbD 2 = e.err := by
  unfold status
  rw [getLsbD_append_ofBool_succ, getLsbD_append_ofBool_succ, getLsbD_append_ofBool_zero]

theorem status_bit_fault (e : Engine) : (status e).getLsbD 3 = e.fault := by
  unfold status
  rw [getLsbD_append_ofBool_succ, getLsbD_append_ofBool_succ, getLsbD_append_ofBool_succ,
    getLsbD_append_ofBool_zero]

/-! ## The three nibbles, bits 15 to 4 -/

/-- A field that begins above the four flags is a field of the three nibbles joined. -/
theorem status_extract_above_flags (e : Engine) (start len : Nat) (h : 4 ≤ start) :
    (status e).extractLsb' start len
      = (0#4 ++ e.faultStep ++ e.lastOp).extractLsb' (start - 4) len := by
  unfold status
  rw [extract_high _ _ _ _ (by omega), extract_high _ _ _ _ (by omega),
    extract_high _ _ _ _ (by omega), extract_high _ _ _ _ (by omega)]
  rfl

@[simp] theorem status_field_lastOp (e : Engine) : (status e).extractLsb' 4 4 = e.lastOp := by
  rw [status_extract_above_flags _ _ _ (by decide), extract_low _ _ _ _ (by decide)]
  exact BitVec.extractLsb'_eq_self

@[simp] theorem status_field_faultStep (e : Engine) :
    (status e).extractLsb' 8 4 = e.faultStep := by
  rw [status_extract_above_flags _ _ _ (by decide), extract_high _ _ _ _ (by decide),
    extract_low _ _ _ _ (by decide)]
  exact BitVec.extractLsb'_eq_self

@[simp] theorem status_field_reserved (e : Engine) : (status e).extractLsb' 12 4 = 0#4 := by
  rw [status_extract_above_flags _ _ _ (by decide), extract_high _ _ _ _ (by decide),
    extract_high _ _ _ _ (by decide)]
  exact BitVec.extractLsb'_eq_self

/-- Settles O21: each bit or field of the status word is the register R23 names, by the lemma about it. -/
theorem statusWordLayout : Obligations.StatusWordLayout := by
  intro e
  have busy_bit : (status e).getLsbD 0 = true ↔ e.state ≠ .idle := by
    rw [status_bit_busy, busy_iff]
  exact ⟨busy_bit, status_bit_initDone e, status_bit_err e, status_bit_fault e,
    status_field_lastOp e, status_field_faultStep e, status_field_reserved e⟩

end Sys2Proof.Machine
end

section
/-! The locations of the target that a presented transaction reaches (20_memory.md R51). -/

namespace Sys2Proof.Machine

/-- The channel block lies in the 256 registers (00_scope.md R5). -/
theorem chBlock_le_of_wf (p : Params) (h : p.wf) : p.regChBase.toNat + 4 * 15 + 3 ≤ 255 := h.1

/-- The low byte is the remainder by 256, of a negative number too. -/
theorem toNat_lowbyte (v : Int) : (lowbyte v).toNat = (v % 256).toNat := BitVec.toNat_ofInt v

/-- No transaction writes outside the 256 registers. -/
theorem lt_256_of_mem_touched (x : Txn) (a : Nat) (h : a ∈ x.touched) : a < 256 := by
  cases x with
  | wrReg ptr d =>
    have ha : a = ptr.toNat := List.mem_singleton.1 h
    rw [ha]
    exact ptr.isLt
  | wrBuf ptr b1 b2 b3 b4 =>
    simp only [Txn.touched, List.mem_cons, List.not_mem_nil, or_false] at h
    omega
  | rdReg ptr => exact absurd h List.not_mem_nil

/-- A burst that starts low enough touches four consecutive registers, without wrap. -/
theorem touched_wrBuf_of_le (ptr b1 b2 b3 b4 : Byte) (h : ptr.toNat + 3 ≤ 255) :
    (Txn.wrBuf ptr b1 b2 b3 b4).touched
      = [ptr.toNat, ptr.toNat + 1, ptr.toNat + 2, ptr.toNat + 3] := by
  have mod_eq (k : Nat) (hk : k ≤ 3) : (ptr.toNat + k) % 256 = ptr.toNat + k :=
    Nat.mod_eq_of_lt (by omega)
  simp only [Txn.touched, mod_eq 1 (by decide), mod_eq 2 (by decide), mod_eq 3 (by decide),
    Nat.mod_eq_of_lt ptr.isLt]

/-- A channel step presents a transaction only for operands with a channel in range, and then the burst to
it (40_register_driver.md R97, R98). -/
theorem chanTxn_eq_some_iff (p : Params) (o : Option ChanWrite) (x : Txn) :
    chanTxn p o = some x ↔ ∃ c, o = some c ∧ (0 ≤ c.ch ∧ c.ch ≤ 15) ∧ x = chWrite p c := by
  cases o with
  | none => simp [chanTxn]
  | some c =>
    by_cases hc : 0 ≤ c.ch ∧ c.ch ≤ 15
    · simp [chanTxn_inrange p c hc, hc, eq_comm]
    · simp [chanTxn_out p c hc, hc]

/-- The only transactions any step presents: a read of the mode register, a write of the mode or the prescale
register, a burst to a channel in range (40_register_driver.md R91). -/
theorem presented_cases (p : Params) (e : Engine) (x : Txn) (h : presented p e = some x) :
    x = .rdReg p.regMode ∨ (∃ d, x = .wrReg p.regMode d) ∨ (∃ d, x = .wrReg p.regPrescale d)
      ∨ ∃ c : ChanWrite, (0 ≤ c.ch ∧ c.ch ≤ 15) ∧ x = chWrite p c := by
  have burst (o : Option ChanWrite) (ho : chanTxn p o = some x) :
      ∃ c : ChanWrite, (0 ≤ c.ch ∧ c.ch ≤ 15) ∧ x = chWrite p c := by
    obtain ⟨c, -, hc, hx⟩ := (chanTxn_eq_some_iff p o x).1 ho
    exact ⟨c, hc, hx⟩
  unfold presented at h
  cases hs : e.state <;> simp only [hs, Option.some.injEq, reduceCtorEq] at h
  case fRd => exact .inl h.symm
  case iClr | fSleep | fRestore | fRestart => exact .inr (.inl ⟨_, h.symm⟩)
  case fPre => exact .inr (.inr (.inl ⟨_, h.symm⟩))
  case chA | chB => exact .inr (.inr (.inr (burst _ h)))

/-- The pointer of an in-range channel's burst is the channel's first register, without wrap. -/
theorem toNat_chWrite_ptr (p : Params) (hp : p.wf) (ch : Int) (hch : 0 ≤ ch ∧ ch ≤ 15) :
    (lowbyte ((p.regChBase.toNat : Int) + 4 * ch)).toNat = p.regChBase.toNat + 4 * ch.toNat := by
  have hblock := chBlock_le_of_wf p hp
  rw [toNat_lowbyte]
  omega

/-- Settles O37, by cases on what a step can present; a burst stays inside its channel because the channel
block ends by 255. -/
theorem reachesOnlyItsTargetRegisters : Obligations.ReachesOnlyItsTargetRegisters := by
  intro p e x hp hx
  refine ⟨lt_256_of_mem_touched x, ?_⟩
  obtain rfl | ⟨d, rfl⟩ | ⟨d, rfl⟩ | ⟨c, hch, rfl⟩ := presented_cases p e x hx
  · rfl
  · exact .inl rfl
  · exact .inr rfl
  · have hptr := toNat_chWrite_ptr p hp c.ch hch
    have hblock := chBlock_le_of_wf p hp
    exact ⟨c.ch.toNat, by omega, hptr, touched_wrBuf_of_le _ _ _ _ _ (by omega)⟩

end Sys2Proof.Machine
end

section
/-! Which words are illegal, and what each of the two kinds of acceptance does (30_encoding.md R74). -/

namespace Sys2Proof.Machine

/-- The opcodes that the map of R72 leaves out are 0 and 6 to 15 (30_encoding.md R72). -/
theorem eq_zero_or_six_le_of_unassigned (op : Nibble) (h1 : op ≠ opServo) (h2 : op ≠ opMotor)
    (h3 : op ≠ opChpwm) (h4 : op ≠ opFreq) (h5 : op ≠ opInit) : op = 0#4 ∨ 6#4 ≤ op := by
  revert op
  decide

/-- The decoder reads an illegal command from exactly the words R74 lists: one case for each branch of the
decoder. -/
theorem decode_not_legal_iff (w : Word) : (decode w).legal = false ↔
    fieldOp w = 0#4 ∨ 6#4 ≤ fieldOp w ∨ (fieldOp w = 4#4 ∧ fieldX w = 0#16) := by
  unfold decode
  split_ifs with h1 h2 h3 h4 h5
  · simp [Instr.legal, h1, opServo]
  · simp [Instr.legal, h2, opMotor]
  · simp [Instr.legal, h3, opChpwm]
  · simp [Instr.legal, h4, opFreq]
  · simp [Instr.legal, h5, opInit]
  · have hop := eq_zero_or_six_le_of_unassigned _ h1 h2 h3 h4 h5
    simp [Instr.legal, ← or_assoc, hop]

/-- The command of an illegal word takes IllegalCommand and does nothing else (60_exceptions.md R160). -/
theorem exec_of_not_legal (i : Instr) (s : State) (h : i.legal = false) :
    exec i s = .next (s.withEng (raiseEvent (.illegalCommand i.op) s.eng)) := by
  cases i with
  | freq id hz y dir =>
    have hz0 : hz = 0#16 := by simpa [Instr.legal] using h
    exact if_pos hz0
  | illegal op => rfl
  | servo | motor | chpwm | init => cases h

/-- SERVO and MOTOR start in CH_A or in I_CLR (41_lazy_init.md R121). -/
theorem lazyFirst_ne_idle (e : Engine) : lazyFirst e ≠ .idle := by
  unfold lazyFirst
  split <;> simp

/-- A legal command is latched and started in a step that is not IDLE (40_register_driver.md R93). -/
theorem exec_of_legal (i : Instr) (s : State) (h : i.legal = true) :
    ∃ id x y dir first, first ≠ .idle
      ∧ exec i s = .next (s.withEng (acceptLegal i.op id x y dir first s.eng)) := by
  cases i with
  | servo sid deg y dir => exact ⟨sid, deg, y, dir, _, lazyFirst_ne_idle s.eng, rfl⟩
  | motor mid spd y dir => exact ⟨mid, spd, y, dir, _, lazyFirst_ne_idle s.eng, rfl⟩
  | chpwm ch on off dir => exact ⟨ch, on, off, dir, .chA, by decide, rfl⟩
  | freq id hz y dir =>
    have hz0 : hz ≠ 0#16 := by simpa [Instr.legal] using h
    exact ⟨id, hz, y, dir, .fRd, by decide, if_neg hz0⟩
  | init id x y dir => exact ⟨id, x, y, dir, .iClr, by decide, rfl⟩
  | illegal op => cases h

/-- No transaction completes at an edge where none is presented (10_state.md R20). -/
theorem completion_of_not_presented (s : State) (h : presented s.params s.eng = none) :
    completion s = none := by
  simp only [completion, h]

/-- Settles O4: the words are split by whether the command they decode to is legal, and each side follows from
what the acceptance of such a command does. -/
theorem illegalEncodingsAreExactlyTwo : Obligations.IllegalEncodingsAreExactlyTwo := by
  rintro s w hidle hrst hvalid rfl
  have hstep := step_of_offer s hrst hidle hvalid
  have hillegal := decode_not_legal_iff s.sampled.cmdData
  refine ⟨fun hw => ?_, fun hw => ?_⟩
  · have hexec := exec_of_not_legal _ s.consume (hillegal.2 hw)
    exact ⟨_, hstep.trans hexec, rfl, hidle, rfl,
      completion_of_not_presented s (presented_idle _ _ hidle), presented_idle _ _ hidle, rfl⟩
  · have hlegal : (decode s.sampled.cmdData).legal = true :=
      Bool.of_not_eq_false (mt hillegal.1 hw)
    obtain ⟨id, x, y, dir, first, hfirst, hexec⟩ := exec_of_legal _ s.consume hlegal
    exact ⟨_, hstep.trans hexec, hfirst, rfl⟩

end Sys2Proof.Machine
end

section
/-! The pseudo-commands of the assembler and the counts they send (30_encoding.md R77). -/

namespace Sys2Proof.Machine

/-- Speed 0 has no sign: it is 0 in either direction (43_motor.md R141). -/
@[simp] theorem signedV_zero (dir : BitVec 1) : signedV 0#16 dir = 0 := by
  simp [signedV]

@[simp] theorem mag_zero : mag 0 = 0 := by decide

@[simp] theorem plusOff_zero : plusOff 0 = 0 := by simp [plusOff]

@[simp] theorem minusOff_zero : minusOff 0 = 0 := by simp [minusOff]

/-- Settles O6: each expansion is the assembler's own definition; the counts are those of speed 0 and of
90 degrees. -/
theorem pseudoCommandsExpandToOne : Obligations.PseudoCommandsExpandToOne := by
  refine ⟨fun _ => rfl, ?stopPlus, ?stopMinus, fun _ => rfl, fun _ => rfl, ?centerPulse⟩
  case stopPlus => rw [signedV_zero, plusOff_zero]
  case stopMinus => rw [signedV_zero, minusOff_zero]
  case centerPulse => decide

end Sys2Proof.Machine
end

section
/-! What the acceptance of a word writes, read from the bits of the word (40_register_driver.md R93). -/

namespace Sys2Proof.Machine

/-- A command keeps the OP of the word it was read from, an illegal one too (30_encoding.md R74). -/
@[simp] theorem op_decode (w : Word) : (decode w).op = fieldOp w := by
  unfold decode
  split_ifs with h1 h2 h3 h4 h5
  exacts [h1.symm, h2.symm, h3.symm, h4.symm, h5.symm, rfl]

/-- The legal words are those of R72's five opcodes, but FREQ with X = 0. -/
theorem decode_legal_iff (w : Word) : (decode w).legal = true ↔
    fieldOp w ∈ [1#4, 2#4, 3#4, 5#4] ∨ (fieldOp w = 4#4 ∧ fieldX w ≠ 0#16) := by
  unfold decode
  split_ifs with h1 h2 h3 h4 h5
  · simp [Instr.legal, h1, opServo]
  · simp [Instr.legal, h2, opMotor]
  · simp [Instr.legal, h3, opChpwm]
  · simp [Instr.legal, h4, opFreq]
  · simp [Instr.legal, h5, opInit]
  · simp only [opServo, opMotor, opChpwm, opFreq, opInit] at h1 h2 h3 h4 h5
    simp [Instr.legal, h1, h2, h3, h4, h5]

/-- The first step of a legal command, by its OP (40_register_driver.md R93). -/
def firstStep (op : Nibble) (e : Engine) : SeqState :=
  if op = 1#4 ∨ op = 2#4 then (if e.initDone = true then .chA else .iClr)
  else if op = 3#4 then .chA
  else if op = 4#4 then .fRd
  else .iClr

/-- A legal word's acceptance latches the word's own fields and starts its command's first step. -/
theorem exec_decode_of_legal (w : Word) (s : State) (h : (decode w).legal = true) :
    exec (decode w) s = .next (s.withEng (acceptLegal (fieldOp w) (fieldId w) (fieldX w) (fieldY w)
      (fieldDir w) (firstStep (fieldOp w) s.eng) s.eng)) := by
  unfold decode at h ⊢
  split_ifs at h ⊢ with h1 h2 h3 h4 h5
  · rw [h1]; rfl
  · rw [h2]; rfl
  · rw [h3]; rfl
  · have hx : fieldX w ≠ 0#16 := by simpa [Instr.legal] using h
    rw [h4]
    exact if_neg hx
  · rw [h5]; rfl
  · cases h

/-- Settles O15: the word is legal or not as its bits say, and the acceptance of each kind is the
equation about it. -/
theorem acceptanceOfCommandWord : Obligations.AcceptanceOfCommandWord := by
  rintro s w hidle hrst hvalid rfl
  have hnone : presented s.params s.eng = none := presented_idle _ _ hidle
  have hstep := step_of_offer s hrst hidle hvalid
  refine ⟨completion_of_not_presented s hnone, hnone, ?_⟩
  by_cases hw : (decode s.sampled.cmdData).legal = true
  · have hexec := exec_decode_of_legal _ s.consume hw
    exact ⟨_, hstep.trans hexec, rfl, rfl, (if_pos ((decode_legal_iff _).1 hw)).symm⟩
  · have hexec := exec_of_not_legal _ s.consume (Bool.eq_false_of_not_eq_true hw)
    rw [op_decode] at hexec
    exact ⟨_, hstep.trans hexec, rfl, rfl, (if_neg (mt (decode_legal_iff _).2 hw)).symm⟩

end Sys2Proof.Machine
end

section
/-! The completion of a bus step and its successor (40_register_driver.md R94, R95). -/

namespace Sys2Proof.Machine

/-- The edge that completes a presented request changes the engine's registers as `completeEng` says. -/
theorem step_of_done (s : State) (x : Txn) (hx : presented s.params s.eng = some x)
    (hrst : s.sampled.rst = false) (hdone : s.sampled.busDone = true) :
    step s = .next { s.consume with
      eng := completeEng s.params s.sampled s.eng
      target := completeTarget s.params s.sampled s.eng x s.target } := by
  have hbusy : s.eng.state ≠ .idle := fun hi => by simp [presented_idle _ _ hi] at hx
  rw [step_of_busy s hrst hbusy, sequencerEdge_done _ s.consume x hx hdone]
  rfl

/-- R5 makes WCNT_W wide enough for the count that F_RESTORE loads (92_eei_decisions.md D17). -/
theorem nextStep_fRestore (p : Params) (hp : p.wf) (e : Engine) (h : e.state = .fRestore) :
    nextStep p e = { e with state := .fWait, wcnt := p.waitCycles - 1 } := by
  simp only [nextStep, h, Nat.mod_eq_of_lt (wait_fits p hp)]

/-- The public commands are those of OP 1 and 2 (30_encoding.md R72). -/
theorem isPublic_iff (op : Nibble) : isPublic op = true ↔ op = 1#4 ∨ op = 2#4 := by
  rw [isPublic, Bool.or_eq_true, decide_eq_true_iff, decide_eq_true_iff]
  rfl

/-- F_RESTART goes on to CH_A for the public commands, with `init_done` set, and ends the others. -/
theorem nextStep_fRestart (p : Params) (e : Engine) (h : e.state = .fRestart) :
    nextStep p e = if e.cOp = 1#4 ∨ e.cOp = 2#4 then { e with state := .chA, initDone := true }
      else { e with state := .idle } := by
  simp only [nextStep, h, isPublic_iff]

/-- Settles O17: with `bus_err` it is BusFault; without, F_RD latches the byte and each other step takes its
successor, in which only F_RESTORE's count depends on R5. -/
theorem completionOfBusStep : Obligations.CompletionOfBusStep := by
  intro s hwf hpres hrst hdone
  obtain ⟨x, hx⟩ := Option.ne_none_iff_exists'.1 hpres
  refine ⟨_, step_of_done s x hx hrst hdone, rfl, fun herr => completeEng_err _ _ _ herr, fun herr => ?_⟩
  change completeEng s.params s.sampled s.eng = _
  by_cases hrd : s.eng.state = .fRd
  · rw [completeEng_fRd _ _ _ herr hrd, hrd]
  · rw [completeEng_ok _ _ _ herr hrd]
    cases hs : s.eng.state
    case fRestore => exact nextStep_fRestore _ hwf _ hs
    case fRestart => exact nextStep_fRestart _ _ hs
    case fRd => exact absurd hs hrd
    case chA => simp only [nextStep, hs]; rfl
    case iClr | fSleep | fPre | chB | idle | fWait | fault => simp only [nextStep, hs]

end Sys2Proof.Machine
end

section
/-! The settling wait, edge by edge (40_register_driver.md R96). -/

namespace Sys2Proof.Machine

/-- R5's least WAIT_CYCLES is at least 5000 microseconds of CLK_HZ (00_scope.md R5). -/
theorem settling_time_le (p : Params) (hp : p.wf) : 5000 * p.clkHz ≤ 1000000 * p.waitCycles := by
  have hwait : Config.leastWait p.clkHz ≤ p.waitCycles := (settles_of_wf p hp).1
  have hceil : (Config.waitUs * p.clkHz + 999999) / 1000000 ≤ p.waitCycles :=
    (Nat.le_max_right _ _).trans hwait
  have hus : Config.waitUs = 5000 := rfl
  rw [hus] at hceil
  omega

/-- An edge of F_WAIT samples nothing but `rst`. -/
theorem step_fWait (s : State) (hs : s.eng.state = .fWait) (hrst : s.sampled.rst = false) :
    step s = .next (s.consume.withEng (waitEdge s.eng)) := by
  rw [step_of_busy s hrst (by simp [hs]), sequencerEdge_wait _ s.consume hs]
  rfl

theorem waitEdge_pos (e : Engine) (h : e.wcnt ≠ 0) : waitEdge e = { e with wcnt := e.wcnt - 1 } :=
  if_neg h

theorem waitEdge_zero (e : Engine) (h : e.wcnt = 0) : waitEdge e = { e with state := .fRestart } :=
  if_pos h

theorem quiet_cons (i : Inputs) (l : List Inputs) :
    quiet (i :: l) = true ↔ i.rst = false ∧ quiet l = true := by
  simp [quiet]

theorem quiet_append (l k : List Inputs) :
    quiet (l ++ k) = true ↔ quiet l = true ∧ quiet k = true := by
  simp [quiet]

/-- As long as the count lasts, each edge without reset takes one from it and leaves the engine in F_WAIT. -/
theorem run_fWait (l rest : List Inputs) (s : State) (hs : s.eng.state = .fWait)
    (hin : s.inputs = l ++ rest) (hquiet : quiet l = true) (hlen : l.length ≤ s.eng.wcnt) :
    ∃ u, run l.length s = .next u ∧ u.eng = { s.eng with wcnt := s.eng.wcnt - l.length }
      ∧ u.params = s.params ∧ u.inputs = rest := by
  induction l generalizing s with
  | nil => exact ⟨s, rfl, rfl, rfl, hin⟩
  | cons i l ih =>
    obtain ⟨hrst, hquiet⟩ := (quiet_cons i l).1 hquiet
    rw [List.length_cons] at hlen ⊢
    have hstep := step_fWait s hs (by rw [sampled_cons s i (l ++ rest) hin, hrst])
    rw [waitEdge_pos _ (by omega)] at hstep
    obtain ⟨u, hrun, heng, hparams, hinputs⟩ :=
      ih (s.consume.withEng { s.eng with wcnt := s.eng.wcnt - 1 }) hs
        (by rw [withEng_inputs, consume_inputs, hin]; rfl) hquiet (Nat.le_sub_one_of_lt hlen)
    refine ⟨u, (run_succ _ _ _ hstep).trans hrun, ?_, hparams, hinputs⟩
    rw [heng, withEng_eng, Nat.sub_sub, Nat.add_comm 1]

/-- One edge more than the count, the wait is over and the engine is in F_RESTART. -/
theorem run_fWait_to_end (l rest : List Inputs) (s : State) (hs : s.eng.state = .fWait)
    (hin : s.inputs = l ++ rest) (hquiet : quiet l = true) (hlen : l.length = s.eng.wcnt + 1) :
    ∃ u, run l.length s = .next u ∧ u.eng = { s.eng with state := .fRestart, wcnt := 0 }
      ∧ u.params = s.params ∧ u.inputs = rest := by
  obtain rfl | ⟨k, i, rfl⟩ := List.eq_nil_or_concat l
  · cases hlen
  rw [List.concat_eq_append] at *
  rw [List.append_assoc] at hin
  obtain ⟨hk, hi⟩ := (quiet_append k [i]).1 hquiet
  have hkl : k.length = s.eng.wcnt := by simpa using hlen
  obtain ⟨u, hrun, heng, hparams, hinputs⟩ := run_fWait k ([i] ++ rest) s hs hin hk hkl.le
  have hstep := step_fWait u (by rw [heng, hs])
    (by rw [sampled_cons u i rest hinputs, ((quiet_cons i []).1 hi).1])
  rw [waitEdge_zero _ (by rw [heng, hkl, Nat.sub_self])] at hstep
  have hend := (run_add _ 1 _ _ hrun).trans (run_succ 0 _ _ hstep)
  rw [List.length_append]
  refine ⟨_, hend, ?_, hparams, ?_⟩
  · rw [withEng_eng, heng, hkl, Nat.sub_self]
  · rw [withEng_inputs, consume_inputs, hinputs]
    rfl

/-- F_RESTORE's completion starts the wait with its whole count. -/
theorem step_fRestore_done (s : State) (hwf : s.params.wf) (hs : s.eng.state = .fRestore)
    (hrst : s.sampled.rst = false) (hdone : s.sampled.busDone = true) (herr : s.sampled.busErr = false) :
    ∃ t, step s = .next t ∧ t.eng = { s.eng with state := .fWait, wcnt := s.params.waitCycles - 1 }
      ∧ t.params = s.params ∧ t.inputs = s.inputs.tail := by
  have hx : presented s.params s.eng = some (.wrReg s.params.regMode s.eng.oldmode) := by
    simp only [presented, hs]
  refine ⟨_, step_of_done s _ hx hrst hdone, ?_, rfl, rfl⟩
  exact (completeEng_ok _ _ _ herr (by simp [hs])).trans (nextStep_fRestore _ hwf _ hs)

/-- Settles O18: F_RESTORE's completion loads WAIT_CYCLES - 1; the count lasts for every one of the listed edges
but the last, and the last starts F_RESTART. -/
theorem settlingWaitLastsWaitCycles : Obligations.SettlingWaitLastsWaitCycles := by
  intro s o l rest hwf hs hin hrst hdone herr hquiet hlen
  obtain rfl := sampled_cons s o (l ++ rest) hin
  obtain ⟨t, hstep, heng, hparams, hinputs⟩ := step_fRestore_done s hwf hs hrst hdone herr
  rw [hin, List.tail_cons] at hinputs
  have run_from_wait (n : Nat) : run (1 + n) s = run n t := by
    rw [Nat.add_comm, run_succ _ _ _ hstep]
  have hwait : t.eng.state = .fWait := by rw [heng]
  have hcount : t.eng.wcnt = s.params.waitCycles - 1 := by rw [heng]
  have hpos := wait_pos _ hwf
  refine ⟨settling_time_le _ hwf, fun j hj => ?during, ?after⟩
  case during =>
    have htake : (l.take j).length = j := List.length_take_of_le (by omega)
    have hsplit : t.inputs = l.take j ++ (l.drop j ++ rest) := by
      rw [hinputs, ← List.append_assoc, List.take_append_drop]
    have hquiet_take : quiet (l.take j) = true :=
      ((quiet_append (l.take j) (l.drop j)).1 (by rwa [List.take_append_drop])).1
    obtain ⟨u, hrun, hu, -, -⟩ := run_fWait _ _ t hwait hsplit hquiet_take (by omega)
    have hu_wait : u.eng.state = .fWait := by rw [hu, hwait]
    rw [htake] at hrun hu
    exact ⟨u, (run_from_wait j).trans hrun, hu_wait, by rw [hu, hcount], presented_fWait _ _ hu_wait⟩
  case after =>
    obtain ⟨u, hrun, hu, hup, -⟩ := run_fWait_to_end l rest t hwait hinputs hquiet (by omega)
    rw [hlen] at hrun
    refine ⟨u, (run_from_wait _).trans hrun, by rw [hu], ?_⟩
    rw [hu, hup, hparams, heng]
    rfl

end Sys2Proof.Machine
end

section
/-! The bytes of a request on the ports (40_register_driver.md R91). -/

namespace Sys2Proof.Machine

/-- The ports of a channel-write step, with the burst's bytes in wire order (20_memory.md R53, R55). -/
theorem busReq_chanTxn (p : Params) (c : ChanWrite) : busReq (chanTxn p (some c)) =
    if 0 ≤ c.ch ∧ c.ch ≤ 15 then
      ⟨true, 1, 0x40, 5, hiByte (low16 c.off) ++ loByte (low16 c.off) ++ hiByte (low16 c.on)
        ++ loByte (low16 c.on) ++ lowbyte (p.regChBase.toNat + 4 * c.ch)⟩
    else ⟨false, 0, 0x40, 0, 0⟩ := by
  split_ifs with hc
  · rw [chanTxn_inrange p c hc]
    rfl
  · rw [chanTxn_out p c hc]
    rfl

/-- A register write carries its pointer and one byte, the unused bytes 0 (20_memory.md R53). -/
theorem busReq_wrReg (ptr d : Byte) :
    busReq (some (.wrReg ptr d)) = ⟨true, 0, 0x40, 2, 0#24 ++ d ++ ptr⟩ := rfl

/-- A register read carries its pointer alone (20_memory.md R53). -/
theorem busReq_rdReg (ptr : Byte) :
    busReq (some (.rdReg ptr)) = ⟨true, 2, 0x40, 1, 0#32 ++ ptr⟩ := rfl

/-- Settles O22: by the state, each request's ports are those of the transaction it presents. -/
theorem requestPortsByState : Obligations.RequestPortsByState := by
  intro p e rst r channel
  have hr : r = busReq (presented p e) := rfl
  cases hs : e.state <;> simp only [presented, hs] at hr ⊢
  case chA | chB =>
    intro c hc
    rw [hr, hc]
    exact busReq_chanTxn p c
  case fRd => exact hr.trans (busReq_rdReg _)
  case iClr | fSleep | fPre | fRestore | fRestart => exact hr.trans (busReq_wrReg _ _)
  case idle | fWait | fault => exact hr

end Sys2Proof.Machine
end

section
/-! The mode bytes of the frequency sequence (40_register_driver.md R105). -/

namespace Sys2Proof.Machine

/-- The eight one-hot bytes. -/
def oneHotBytes : List Byte := [0x01#8, 0x02#8, 0x04#8, 0x08#8, 0x10#8, 0x20#8, 0x40#8, 0x80#8]

theorem mem_oneHotBytes (b : Byte) (h : oneHot b) : b ∈ oneHotBytes := by
  revert b
  decide

/-- Two different one-hot masks share no bit. -/
theorem and_eq_zero_of_oneHot (a b : Byte) (ha : oneHot a) (hb : oneHot b) (hab : a ≠ b) :
    a &&& b = 0#8 := by
  have disjoint : ∀ a ∈ oneHotBytes, ∀ b ∈ oneHotBytes, a ≠ b → a &&& b = 0#8 := by decide
  exact disjoint a (mem_oneHotBytes a ha) b (mem_oneHotBytes b hb) hab

/-! Setting the bits of a mask `b` sets them all and keeps every other bit; clearing them leaves none. -/

theorem or_and_mask {w : Nat} (x b : BitVec w) : (x ||| b) &&& b = b := by
  ext i hi
  cases hb : b[i] <;> simp [hb]

theorem or_and_not_mask {w : Nat} (x b : BitVec w) : (x ||| b) &&& ~~~b = x &&& ~~~b := by
  ext i hi
  cases hb : b[i] <;> simp [hb]

theorem and_not_and_mask {w : Nat} (x b : BitVec w) : (x &&& ~~~b) &&& b = 0#w := by
  rw [BitVec.and_assoc, BitVec.and_comm (~~~b), BitVec.and_not_self]
  exact BitVec.and_zero

/-- The sleep byte has the restart bit clear, where the two masks share no bit. -/
theorem sleepVal_and_bitRestart (p : Params) (m : Byte) (h : p.bitSleep &&& p.bitRestart = 0#8) :
    sleepVal p m &&& p.bitRestart = 0#8 := by
  rw [sleepVal, BitVec.and_or_distrib_right, and_not_and_mask, h, BitVec.or_zero]

/-- The sleep byte keeps every bit of the mode but sleep and restart. -/
theorem sleepVal_keeps (p : Params) (m : Byte) :
    sleepVal p m &&& ~~~(p.bitSleep ||| p.bitRestart) = m &&& ~~~(p.bitSleep ||| p.bitRestart) := by
  unfold sleepVal
  ext i hi
  cases hb : p.bitSleep[i] <;> simp [hb]

/-- The restart byte sets its two bits at once. -/
theorem restartVal_eq (p : Params) (m : Byte) :
    restartVal p m = m ||| (p.bitRestart ||| p.bitAi) := BitVec.or_assoc _ _ _

theorem restartVal_and_bitRestart (p : Params) (m : Byte) :
    restartVal p m &&& p.bitRestart = p.bitRestart := by
  rw [restartVal_eq, BitVec.or_comm p.bitRestart, ← BitVec.or_assoc, or_and_mask]

/-! The spec's default masks: restart 0x80, sleep 0x10, auto-increment 0x20 (00_scope.md R5; log 3). -/

theorem sleepVal_defaults (c w l : Nat) (m : Byte) :
    sleepVal (Config.defaults c w l) m = ((m &&& 0x7F#8) ||| 0x10#8) := by
  have hmask : 0x7F#8 = ~~~0x80#8 := by decide
  rw [hmask]
  rfl

theorem restartVal_defaults (c w l : Nat) (m : Byte) :
    restartVal (Config.defaults c w l) m = (m ||| 0xA0#8) := by
  have hmask : 0xA0#8 = 0x80#8 ||| 0x20#8 := by decide
  rw [hmask]
  exact restartVal_eq _ m

/-- Settles O35: the two formulas are the definitions, and the bits follow from what setting and clearing a mask
does; only the cleared restart bit needs R5, by which the masks share no bit. -/
theorem modeBytesOfSequence : Obligations.ModeBytesOfSequence := by
  intro p m hwf
  obtain ⟨-, hrestart, hsleep, -, hne, -⟩ := hwf
  have hdisjoint : p.bitSleep &&& p.bitRestart = 0#8 :=
    and_eq_zero_of_oneHot _ _ hsleep hrestart hne.symm
  have restart_keeps : restartVal p m &&& ~~~(p.bitRestart ||| p.bitAi)
      = m &&& ~~~(p.bitRestart ||| p.bitAi) := by
    rw [restartVal_eq, or_and_not_mask]
  exact ⟨rfl, rfl, or_and_mask _ _, sleepVal_and_bitRestart p m hdisjoint, sleepVal_keeps p m,
    restartVal_and_bitRestart p m, or_and_mask _ _, restart_keeps,
    fun c w l => ⟨sleepVal_defaults c w l m, restartVal_defaults c w l m⟩,
    fun e hs => by simp only [presented, hs]⟩

end Sys2Proof.Machine
end

section
/-! The bytes of a channel write (40_register_driver.md R98). -/

namespace Sys2Proof.Machine

/-- The two bytes of a count are its value, low byte first (20_memory.md R54). -/
theorem loByte_add_hiByte (v : Half) : (loByte v).toNat + 256 * (hiByte v).toNat = v.toNat := by
  have hv := v.isLt
  simp only [loByte, hiByte, BitVec.extractLsb'_toNat, Nat.shiftRight_eq_div_pow]
  omega

/-- A count is sent modulo 65536, a negative one too (00_scope.md R7). -/
theorem toNat_low16 (v : Int) : ((low16 v).toNat : Int) = v % 65536 := by
  simp only [low16, BitVec.toNat_ofInt]
  omega

/-- A count's two bytes on the wire are the count modulo 65536. -/
theorem count_bytes (v : Int) :
    ((loByte (low16 v)).toNat : Int) + 256 * (hiByte (low16 v)).toNat = v % 65536 := by
  rw [← toNat_low16 v, ← loByte_add_hiByte (low16 v)]
  push_cast
  rfl

/-- Settles O36: an in-range burst's pointer and counts are the lemmas above; a channel step presents what its
operands give. -/
theorem channelWriteBytes : Obligations.ChannelWriteBytes := by
  intro p c hwf
  refine ⟨fun hch => ?burst, fun hch => chanTxn_out p c (by omega), fun e => ⟨?chA, ?chB⟩⟩
  case burst =>
    have hptr := toNat_chWrite_ptr p hwf c.ch hch
    exact ⟨_, _, _, _, _, chanTxn_inrange p c hch, by omega, count_bytes c.on, count_bytes c.off⟩
  case chA | chB =>
    intro hs hc
    simp only [presented, hs, hc]

end Sys2Proof.Machine
end

section
/-! The frequency of a sequence (40_register_driver.md R104). -/

namespace Sys2Proof.Machine

theorem seqHz_freq (e : Engine) (h : e.cOp = opFreq) : seqHz e = e.cX.toNat := if_pos h

theorem seqHz_of_ne_freq (e : Engine) (h : e.cOp ≠ opFreq) : seqHz e = Config.initHz := if_neg h

/-- The prescale byte of every initialisation. -/
theorem prescaleByte_initHz : prescaleByte Config.initHz = 0x65#8 := by decide

/-- Settles O34: by whether the command is FREQ. -/
theorem sequenceFrequency : Obligations.SequenceFrequency := by
  intro e
  refine ⟨seqHz_freq e, fun h => ?_⟩
  rw [seqHz_of_ne_freq e h]
  exact ⟨rfl, prescaleByte_initHz⟩

end Sys2Proof.Machine
end

section
/-! What each operation does to `init_done` (41_lazy_init.md R120, R122). -/

namespace Sys2Proof.Machine

/-- Acceptance writes no `init_done`, of whatever command (40_register_driver.md R93). -/
theorem exec_initDone (i : Instr) (s t : State) (h : exec i s = .next t) :
    t.eng.initDone = s.eng.initDone := by
  cases hl : i.legal with
  | true =>
    obtain ⟨id, x, y, dir, first, -, hexec⟩ := exec_of_legal i s hl
    cases hexec.symm.trans h
    rfl
  | false =>
    cases (exec_of_not_legal i s hl).symm.trans h
    rfl

/-- The successor of F_RESTART sets the flag for the public commands; no other successor writes it. -/
theorem nextStep_initDone (p : Params) (e : Engine) : (nextStep p e).initDone = true ↔
    e.initDone = true ∨ (e.state = .fRestart ∧ (e.cOp = 1#4 ∨ e.cOp = 2#4)) := by
  cases hs : e.state
  case fRestart =>
    rw [nextStep_fRestart p e hs]
    split_ifs with hop <;> simp [hop]
  case chA =>
    simp only [nextStep, hs]
    split_ifs <;> simp
  case idle | iClr | fRd | fSleep | fPre | fRestore | fWait | chB | fault => simp [nextStep, hs]

/-- A completion sets the flag where it succeeds and its step's successor sets it. -/
theorem completeEng_initDone (p : Params) (inp : Inputs) (e : Engine) :
    (completeEng p inp e).initDone = true ↔ e.initDone = true
      ∨ (e.state = .fRestart ∧ (e.cOp = 1#4 ∨ e.cOp = 2#4) ∧ inp.busErr = false) := by
  cases herr : inp.busErr with
  | true => simp [completeEng_err p inp e herr]
  | false =>
    by_cases hrd : e.state = .fRd
    · simp [completeEng_fRd p inp e herr hrd, hrd]
    · simp [completeEng_ok p inp e herr hrd, nextStep_initDone]

@[simp] theorem waitEdge_initDone (e : Engine) : (waitEdge e).initDone = e.initDone := by
  unfold waitEdge
  split_ifs <;> rfl

/-- The one arm of the sequencer that sets the flag is the completion of F_RESTART. -/
theorem sequencerEdge_initDone (inp : Inputs) (s : State) (hbusy : s.eng.state ≠ .idle) :
    (sequencerEdge inp s).eng.initDone = true ↔ s.eng.initDone = true
      ∨ (s.eng.state = .fRestart ∧ (s.eng.cOp = 1#4 ∨ s.eng.cOp = 2#4) ∧ inp.busDone = true
        ∧ inp.busErr = false) := by
  obtain ⟨x, -, hdone, he⟩ | ⟨-, hdone, he⟩ | ⟨hchan, -, he⟩ | ⟨hwait, he⟩ | ⟨hfault, he⟩ :=
    sequencerEdge_cases inp s hbusy
  · simp [he, completeEng_initDone, hdone]
  · simp [he, hdone]
  · have hnot : s.eng.state ≠ .fRestart := by obtain h | h := hchan <;> simp [h]
    simp [he, nextStep_initDone, hnot]
  · simp [he, hwait]
  · simp [he, hfault]

/-- After an edge the flag is set where reset is absent and either it was set before or F_RESTART of a public
command completes without error. -/
theorem step_initDone (s t : State) (h : step s = .next t) : t.eng.initDone = true ↔
    s.sampled.rst = false ∧ (s.eng.initDone = true
      ∨ (s.eng.state = .fRestart ∧ (s.eng.cOp = 1#4 ∨ s.eng.cOp = 2#4) ∧ s.sampled.busDone = true
        ∧ s.sampled.busErr = false)) := by
  cases hrst : s.sampled.rst with
  | true =>
    cases (step_of_rst s hrst).symm.trans h
    simp [Engine.reset]
  | false =>
    by_cases hidle : s.eng.state = .idle
    · have hkeep : t.eng.initDone = s.eng.initDone := by
        cases hvalid : s.sampled.cmdValid with
        | true => exact exec_initDone _ s.consume t ((step_of_offer s hrst hidle hvalid).symm.trans h)
        | false =>
          cases (step_of_no_offer s hrst hidle hvalid).symm.trans h
          rfl
      simp [hkeep, hidle]
    · cases (step_of_busy s hrst hidle).symm.trans h
      simpa using sequencerEdge_initDone s.sampled s.consume hidle

/-- Settles O50: both directions are read off the one condition under which the flag is set after an edge. -/
theorem initDoneSetAndCleared : Obligations.InitDoneSetAndCleared := by
  refine ⟨rfl, fun s t h => ⟨fun hclear => ?_, fun hset => ?_⟩⟩
  · rw [step_initDone s t h, hclear]
    simp only [Bool.false_eq_true, false_or]
  · rw [← Bool.not_eq_true, step_initDone s t h, hset]
    simp only [true_or, and_true, Bool.not_eq_false]

end Sys2Proof.Machine
end

section
/-! The raw commands do the same with `init_done` set or clear (41_lazy_init.md R125): each operation of a
command that is not public commutes with `withInitDone`. -/

namespace Sys2Proof.Machine

/-- The opcodes of CHPWM, FREQ and INIT are not public (30_encoding.md R72). -/
theorem isPublic_of_raw (op : Nibble) (h : op = 3#4 ∨ op = 4#4 ∨ op = 5#4) : isPublic op = false := by
  obtain rfl | rfl | rfl := h <;> rfl

/-- The flag is no operand of any request (40_register_driver.md R91). -/
theorem presented_withInitDone (s : State) (b : Bool) :
    presented (withInitDone s b).params (withInitDone s b).eng = presented s.params s.eng := rfl

theorem completion_withInitDone (s : State) (b : Bool) :
    completion (withInitDone s b) = completion s := rfl

/-- SERVO and MOTOR alone choose their first step by the flag (41_lazy_init.md R121). -/
theorem exec_withInitDone (i : Instr) (s : State) (b : Bool) (h : isPublic i.op = false) :
    ∃ t, exec i s = .next t ∧ exec i (withInitDone s b) = .next (withInitDone t b) := by
  cases i with
  | servo | motor => cases h
  | chpwm ch on off dir => exact ⟨_, rfl, rfl⟩
  | freq id hz y dir =>
    by_cases hz0 : hz = 0#16
    · exact ⟨_, if_pos hz0, if_pos hz0⟩
    · exact ⟨_, if_neg hz0, if_neg hz0⟩
  | init id x y dir => exact ⟨_, rfl, rfl⟩
  | illegal op => exact ⟨_, rfl, rfl⟩

/-- Without a public command no successor reads or writes the flag (41_lazy_init.md R122). -/
theorem nextStep_withInitDone (p : Params) (e : Engine) (b : Bool) (h : isPublic e.cOp = false) :
    nextStep p { e with initDone := b } = { nextStep p e with initDone := b } := by
  cases hs : e.state
  case fRestart => simp [nextStep, hs, h]
  case chA =>
    simp only [nextStep, hs]
    split_ifs <;> rfl
  case idle | iClr | fRd | fSleep | fPre | fRestore | fWait | chB | fault => simp only [nextStep, hs]

theorem completeEng_withInitDone (p : Params) (inp : Inputs) (e : Engine) (b : Bool)
    (h : isPublic e.cOp = false) :
    completeEng p inp { e with initDone := b } = { completeEng p inp e with initDone := b } := by
  cases herr : inp.busErr with
  | true => rw [completeEng_err _ _ _ herr, completeEng_err _ _ _ herr]
  | false =>
    by_cases hrd : e.state = .fRd
    · rw [completeEng_fRd _ _ e herr hrd, completeEng_fRd _ _ { e with initDone := b } herr hrd]
    · rw [completeEng_ok _ _ e herr hrd, completeEng_ok _ _ { e with initDone := b } herr hrd,
        nextStep_withInitDone p e b h]

theorem waitEdge_withInitDone (e : Engine) (b : Bool) :
    waitEdge { e with initDone := b } = { waitEdge e with initDone := b } := by
  unfold waitEdge
  split_ifs <;> rfl

/-- The sequencer takes the same arm with the flag set or clear. -/
theorem sequencerEdge_withInitDone (inp : Inputs) (s : State) (b : Bool)
    (hbusy : s.eng.state ≠ .idle) (h : isPublic s.eng.cOp = false) :
    sequencerEdge inp (withInitDone s b) = withInitDone (sequencerEdge inp s) b := by
  have hreq := presented_withInitDone s b
  obtain ⟨x, hx, hdone, he⟩ | ⟨hpres, hdone, he⟩ | ⟨hchan, hnone, he⟩ | ⟨hwait, he⟩ | ⟨hfault, he⟩ :=
    sequencerEdge_cases inp s hbusy <;> rw [he]
  · rw [sequencerEdge_done inp (withInitDone s b) x (hreq.trans hx) hdone]
    simp only [withInitDone, withEng_params, withEng_eng]
    rw [completeEng_withInitDone s.params inp s.eng b h]
    rfl
  · obtain ⟨x, hx⟩ := Option.ne_none_iff_exists'.1 hpres
    exact sequencerEdge_hold inp (withInitDone s b) x (hreq.trans hx) hdone
  · rw [sequencerEdge_skip inp (withInitDone s b) hchan (hreq.trans hnone)]
    simp only [withInitDone, withEng_params, withEng_eng]
    rw [nextStep_withInitDone s.params s.eng b h]
    rfl
  · rw [sequencerEdge_wait inp (withInitDone s b) hwait]
    simp only [withInitDone, withEng_eng]
    rw [waitEdge_withInitDone s.eng b]
    rfl
  · exact sequencerEdge_fault inp (withInitDone s b) hfault

/-- Outside the public commands the sequencer leaves the flag as it is. -/
theorem sequencerEdge_keeps_initDone (inp : Inputs) (s : State) (hbusy : s.eng.state ≠ .idle)
    (h : isPublic s.eng.cOp = false) : (sequencerEdge inp s).eng.initDone = s.eng.initDone := by
  have hop : ¬ (s.eng.cOp = 1#4 ∨ s.eng.cOp = 2#4) := by
    rw [← isPublic_iff, h]
    decide
  rw [Bool.eq_iff_iff, sequencerEdge_initDone inp s hbusy]
  simp only [hop, false_and, and_false, or_false]

/-- Settles O51: acceptance and the sequencer's edge each keep the flag and commute with it. -/
theorem rawCommandsIgnoreInitDone : Obligations.RawCommandsIgnoreInitDone := by
  refine ⟨fun i s b hraw _ => ?accepted, fun s b hraw hbusy hrst => ?inProgress⟩
  case accepted =>
    obtain ⟨t, hexec, hexec_b⟩ := exec_withInitDone i s b (isPublic_of_raw _ hraw)
    exact ⟨t, hexec, exec_initDone i s t hexec, hexec_b⟩
  case inProgress =>
    have hpub := isPublic_of_raw _ hraw
    refine ⟨_, step_of_busy s hrst hbusy, sequencerEdge_keeps_initDone s.sampled s.consume hbusy hpub,
      ?_, completion_withInitDone s b⟩
    rw [step_of_busy (withInitDone s b) hrst hbusy]
    exact congrArg _ (sequencerEdge_withInitDone s.sampled s.consume b hbusy hpub)

end Sys2Proof.Machine
end

section
/-! The servo channel and the pulse (42_servo.md R130, R131). -/

namespace Sys2Proof.Machine

/-! ## The servo channel -/

theorem servoCh_eq (sid : Byte) : servoCh sid = (sid.toNat : Int) + 7 := rfl

/-- The one identifier below the intended ones drives motor 1 (42_servo.md R130, 43_motor.md R140). -/
theorem servoCh_zero : servoCh 0#8 = plusCh 1#8 := by decide

/-- Past the intended identifiers the channel exceeds 15, and the write is dropped (42_servo.md R130). -/
theorem chanTxn_servoCh_out (p : Params) (sid : Byte) (on off : Int) (h : 9 ≤ sid.toNat) :
    chanTxn p (some ⟨servoCh sid, on, off⟩) = none := by
  apply chanTxn_out
  simp only [servoCh_eq]
  omega

/-- Settles O26: the ranges are those of `sid + 7` on a byte, and a channel past 15 sends nothing. -/
theorem servoChannels : Obligations.ServoChannels := by
  intro p sid on off
  have hch := servoCh_eq sid
  have hbyte : sid.toNat < 256 := sid.isLt
  refine ⟨hch, by omega, by omega, fun hlow hhigh => by omega, ?motor, chanTxn_servoCh_out p sid on off⟩
  case motor =>
    rintro rfl
    exact servoCh_zero

/-! ## The pulse -/

/-- The map from angles to pulses is 13*deg + 1080 over 6 with 30 cancelled (42_servo.md R131). -/
theorem pulse_eq_linearMap (d : Int) : pulse d
    = Int.tdiv ((d - Config.degLo) * (Config.pulseHi - Config.pulseLo)
        + Config.pulseLo * (Config.degHi - Config.degLo)) (Config.degHi - Config.degLo) := by
  have hnum : (d - Config.degLo) * (Config.pulseHi - Config.pulseLo)
      + Config.pulseLo * (Config.degHi - Config.degLo) = 30 * (13 * d + 1080) := by
    simp only [Config.degLo, Config.degHi, Config.pulseLo, Config.pulseHi]
    ring
  have hden : Config.degHi - Config.degLo = 30 * 6 := by decide
  rw [hnum, hden, Int.mul_tdiv_mul_of_pos _ _ (by decide)]
  rfl

/-- What the truncation leaves over. -/
theorem six_mul_pulse_add_tmod (d : Int) :
    6 * pulse d + (13 * d + 1080).tmod 6 = 13 * d + 1080 := Int.mul_tdiv_add_tmod _ _

/-- Where the map is not negative the pulse is its floor. -/
theorem pulse_floor (d : Int) (h : 0 ≤ 13 * d + 1080) :
    6 * pulse d ≤ 13 * d + 1080 ∧ 13 * d + 1080 < 6 * (pulse d + 1) := by
  have hsplit := six_mul_pulse_add_tmod d
  have hnonneg := Int.tmod_nonneg 6 h
  have hlt := Int.tmod_lt_of_pos (13 * d + 1080) (show (0 : Int) < 6 by decide)
  omega

/-- Where the map is not positive the pulse is its ceiling. -/
theorem pulse_ceil (d : Int) (h : 13 * d + 1080 ≤ 0) :
    13 * d + 1080 ≤ 6 * pulse d ∧ 6 * (pulse d - 1) < 13 * d + 1080 := by
  have hsplit := six_mul_pulse_add_tmod d
  have hnonpos := Int.tmod_nonneg 6 (neg_nonneg.2 h)
  rw [Int.neg_tmod] at hnonpos
  have hlt := Int.lt_tmod_of_pos (13 * d + 1080) (show (0 : Int) < 6 by decide)
  omega

/-- The bounds are the pulses of -32768 and 32767: nothing is clamped (42_servo.md R131). -/
theorem pulse_range (deg : Half) : -70817 ≤ pulse deg.toInt ∧ pulse deg.toInt ≤ 71175 := by
  have hlow : -32768 ≤ deg.toInt := deg.le_toInt
  have hhigh : deg.toInt < 32768 := deg.toInt_lt
  obtain h | h := le_total 0 (13 * deg.toInt + 1080)
  · have hfloor := pulse_floor deg.toInt h
    omega
  · have hceil := pulse_ceil deg.toInt h
    omega

/-- SERVO's operands (42_servo.md R132). -/
theorem chanA_servo (e : Engine) (h : e.cOp = opServo) :
    chanA e = some ⟨servoCh e.cId, 0, pulse e.cX.toInt⟩ := if_pos h

/-- Settles O27: floor and ceiling are read off the remainder, the range off both, and the off-count off
SERVO's operands. -/
theorem pulseTruncatesLinearMap : Obligations.PulseTruncatesLinearMap := by
  intro deg
  obtain ⟨hlow, hhigh⟩ := pulse_range deg
  refine ⟨rfl, pulse_eq_linearMap _, hlow, hhigh, pulse_floor _, pulse_ceil _, ?offCount⟩
  case offCount =>
    rintro e hop rfl
    rw [chanA_servo e hop]
    rfl

end Sys2Proof.Machine
end

section
/-! The motor H-bridge selector: its channel pair, its count, its side (43_motor.md R140 to R143). -/

namespace Sys2Proof.Machine

/-! ## The channel pair -/

theorem minusCh_eq (mid : Byte) : minusCh mid = (4 - (mid.toNat : Int)) * 2 := rfl

/-- A pair is two neighbouring channels, the plus channel above the minus channel. -/
theorem plusCh_eq_minusCh_add_one (mid : Byte) : plusCh mid = minusCh mid + 1 := rfl

/-- Past the intended identifiers the whole pair lies below channel 0 (43_motor.md R140). -/
theorem plusCh_neg_iff (mid : Byte) : plusCh mid < 0 ↔ 5 ≤ mid.toNat := by
  rw [plusCh_eq_minusCh_add_one, minusCh_eq]
  omega

/-- A write to a negative channel is dropped (40_register_driver.md R97). -/
theorem chanTxn_of_neg (p : Params) (c : ChanWrite) (h : c.ch < 0) : chanTxn p (some c) = none :=
  chanTxn_out p c fun hin => absurd hin.1 (not_le.2 h)

/-- Settles O29: the listed pairs are computed; past identifier 4 the plus channel is negative, the minus
channel lies below it, and a negative channel sends nothing. -/
theorem motorChannels : Obligations.MotorChannels := by
  refine ⟨fun _ => ⟨rfl, rfl⟩, by decide, by decide, by decide, by decide, by decide, by decide, by decide,
    fun p mid on off hmid => ?dropped⟩
  case dropped =>
    have hplus : plusCh mid < 0 := (plusCh_neg_iff mid).2 hmid
    have hminus : minusCh mid < 0 := by
      rw [plusCh_eq_minusCh_add_one] at hplus
      omega
    exact ⟨hplus, hminus, chanTxn_of_neg p _ hplus, chanTxn_of_neg p _ hminus⟩

/-! ## The signed speed -/

/-- DIR = 1 negates the speed, on the integer (43_motor.md R141). -/
theorem signedV_eq (spd : Half) (dir : BitVec 1) :
    signedV spd dir = if dir = 0#1 then spd.toInt else -spd.toInt := by
  unfold signedV dsign
  split_ifs
  · exact mul_one _
  · exact mul_neg_one _

/-- The upper bound is the negation of -32768, which no 16-bit word holds (43_motor.md R141). -/
theorem signedV_range (spd : Half) (dir : BitVec 1) :
    -32768 ≤ signedV spd dir ∧ signedV spd dir ≤ 32768 := by
  have hlow : -32768 ≤ spd.toInt := spd.le_toInt
  have hhigh : spd.toInt < 32768 := spd.toInt_lt
  rw [signedV_eq]
  split_ifs <;> omega

/-! ## The count of the active side -/

theorem mag_of_clamped (v : Int) (h : 100 ≤ v.natAbs) : mag v = 4096 := if_pos h

theorem mag_of_lt (v : Int) (h : v.natAbs < 100) : mag v = v.natAbs * 1024 / 25 := if_neg (not_le.2 h)

/-- The count is the hundredth part of `min(409600, 4096*|v|)`, truncated: the clamp and the quotient of R142
are one formula (43_motor.md R141, R142). -/
theorem mag_truncates (v : Int) : 100 * mag v ≤ min 409600 (4096 * v.natAbs)
    ∧ min 409600 (4096 * v.natAbs) < 100 * (mag v + 1) := by
  obtain h | h := le_or_gt 100 v.natAbs
  · rw [mag_of_clamped v h]
    omega
  · rw [mag_of_lt v h]
    omega

theorem mag_le (v : Int) : mag v ≤ 4096 := by
  have htrunc := mag_truncates v
  omega

/-- The clamp is reached exactly from |v| = 100 on (43_motor.md R141). -/
theorem mag_eq_clamp_iff (v : Int) : mag v = 4096 ↔ 100 ≤ v.natAbs := by
  have htrunc := mag_truncates v
  omega

/-- The slowest speed that is not 0 already gives 40 (43_motor.md R142). -/
theorem forty_le_mag (v : Int) (h : v ≠ 0) : 40 ≤ mag v := by
  have htrunc := mag_truncates v
  omega

theorem mag_eq_zero_iff (v : Int) : mag v = 0 ↔ v = 0 := by
  refine ⟨fun hmag => ?_, fun hv => hv ▸ mag_zero⟩
  by_contra hv
  have hforty := forty_le_mag v hv
  omega

/-- Settles O31: the speed's bounds are those of a 16-bit word and of its negation, and every fact about the
count follows from its being the truncation. -/
theorem motorMagnitude : Obligations.MotorMagnitude := by
  refine ⟨fun spd dir => ⟨signedV_eq spd dir, signedV_range spd dir⟩, by decide, fun v => ?count⟩
  case count =>
    obtain ⟨hlow, hhigh⟩ := mag_truncates v
    exact ⟨hlow, hhigh, mag_le v, mag_eq_clamp_iff v, mag_eq_zero_iff v, forty_le_mag v⟩

/-! ## The side -/

/-- MOTOR's first channel write (43_motor.md R144). -/
theorem chanA_motor (e : Engine) (h : e.cOp = opMotor) :
    chanA e = some ⟨plusCh e.cId, 0, plusOff (signedV e.cX e.cDir)⟩ := by
  have hservo : e.cOp ≠ opServo := by
    rw [h]
    decide
  exact (if_neg hservo).trans (if_pos h)

/-- MOTOR's second channel write (43_motor.md R144). -/
theorem chanB_motor (e : Engine) (h : e.cOp = opMotor) :
    chanB e = some ⟨minusCh e.cId, 0, minusOff (signedV e.cX e.cDir)⟩ := if_pos h

theorem plusOff_of_nonpos (v : Int) (h : v ≤ 0) : plusOff v = mag v := if_pos h

theorem plusOff_of_pos (v : Int) (h : 0 < v) : plusOff v = 0 := if_neg (not_le.2 h)

theorem minusOff_of_nonpos (v : Int) (h : v ≤ 0) : minusOff v = 0 := if_pos h

theorem minusOff_of_pos (v : Int) (h : 0 < v) : minusOff v = mag v := if_neg (not_le.2 h)

/-- Settles O32: the operands of MOTOR's two writes hold the two off-counts, and the sign of the signed speed
says which of them is the count. -/
theorem motorSideSelection : Obligations.MotorSideSelection := by
  intro e hop v
  rw [chanA_motor e hop, chanB_motor e hop]
  refine ⟨fun hv => ?nonpos, fun hv => ?pos, fun hv => ?zero⟩
  case nonpos => rw [plusOff_of_nonpos _ hv, minusOff_of_nonpos _ hv]; exact ⟨rfl, rfl⟩
  case pos => rw [plusOff_of_pos _ hv, minusOff_of_pos _ hv]; exact ⟨rfl, rfl⟩
  case zero =>
    rw [show signedV e.cX e.cDir = 0 from hv, plusOff_zero, minusOff_zero]
    exact ⟨rfl, rfl⟩

end Sys2Proof.Machine
end

section
/-! The illegal word and the edge after it (60_exceptions.md R160). -/

namespace Sys2Proof.Machine

/-- Acceptance clears `err` for a legal command and sets it for an illegal one (30_encoding.md R74). -/
theorem exec_err (i : Instr) (s : State) :
    ∃ u, exec i s = .next u ∧ u.eng.err = !i.legal := by
  cases hl : i.legal with
  | true =>
    obtain ⟨id, x, y, dir, first, -, hexec⟩ := exec_of_legal i s hl
    exact ⟨_, hexec, rfl⟩
  | false => exact ⟨_, exec_of_not_legal i s hl, rfl⟩

/-- What an edge in IDLE does to `err`: reset and a legal word clear it, an illegal word sets it, and without an
offer it stays (60_exceptions.md R160). -/
theorem step_idle_err (s : State) (hidle : s.eng.state = .idle) :
    ∃ u, step s = .next u
      ∧ (s.sampled.rst = true → u.eng.err = false)
      ∧ (s.sampled.rst = false → s.sampled.cmdValid = true →
          u.eng.err = !(decode s.sampled.cmdData).legal)
      ∧ (s.sampled.rst = false → s.sampled.cmdValid = false → u.eng.err = s.eng.err) := by
  cases hrst : s.sampled.rst with
  | true => exact ⟨_, step_of_rst s hrst, fun _ => rfl, by simp, by simp⟩
  | false =>
    cases hvalid : s.sampled.cmdValid with
    | true =>
      obtain ⟨u, hexec, herr⟩ := exec_err (decode s.sampled.cmdData) s.consume
      exact ⟨u, (step_of_offer s hrst hidle hvalid).trans hexec, by simp, fun _ _ => herr, by simp⟩
    | false => exact ⟨_, step_of_no_offer s hrst hidle hvalid, by simp, by simp, fun _ _ => rfl⟩

/-- `cmd_ready` is 1 in IDLE outside reset (10_state.md R21). -/
theorem cmdReady_of_idle (e : Engine) (h : e.state = .idle) : cmdReady e false = true := by
  simp [cmdReady, h]

/-- `cmd_ready` is 0 in every other state (10_state.md R21). -/
theorem cmdReady_of_busy (e : Engine) (rst : Bool) (h : e.state ≠ .idle) : cmdReady e rst = false := by
  simp [cmdReady, h]

/-- Settles O40: the accepting edge is IllegalCommand of the word's OP, which leaves the engine in IDLE with `err`
set; the next edge is then an edge in IDLE. -/
theorem illegalCommandEvent : Obligations.IllegalCommandEvent := by
  intro s hidle hrst hvalid hillegal
  have hexec := exec_of_not_legal _ s.consume hillegal
  rw [op_decode, raiseEvent_illegalCommand] at hexec
  have hcompletion := completion_of_not_presented s (presented_idle _ _ hidle)
  exact ⟨_, (step_of_offer s hrst hidle hvalid).trans hexec, rfl, rfl, hcompletion,
    presented_idle _ _ hidle, status_bit_err _, status_field_lastOp _, cmdReady_of_idle _ hidle,
    step_idle_err _ hidle⟩

end Sys2Proof.Machine
end

section
/-! The failed transaction (60_exceptions.md R162). -/

namespace Sys2Proof.Machine

/-- Where a request is presented, LAST_OP is the OP of the command in progress: an illegal word, which alone makes
them differ, leaves the engine in IDLE (10_state.md R29). -/
theorem lastOp_eq_cOp_of_presented (p : Params) (e : Engine) (x : Txn) (hflags : FlagsAgree e)
    (hx : presented p e = some x) : e.lastOp = e.cOp := by
  obtain ⟨-, hlegal, hillegal, -⟩ := hflags
  refine hlegal (Bool.eq_false_iff.2 fun herr => ?_)
  have hnone := presented_idle p e (hillegal herr).1
  simp [hnone] at hx

/-- Under R5 a failed completion changes no location outside its transaction. -/
theorem read_completeTarget_err_frame (p : Params) (hwf : p.wf) (inp : Inputs) (herr : inp.busErr = true)
    (e : Engine) (x : Txn) (m : Memory) (a : Nat) (ha : a ∉ x.touched) :
    Memory.read (completeTarget p inp e x m) a = Memory.read m a := by
  rw [completeTarget_err p hwf inp herr, read_disturbed, if_neg ha]

/-- The edge at which the presented request is reported failed takes BusFault of its step. -/
theorem step_of_failed (s : State) (x : Txn) (hx : presented s.params s.eng = some x)
    (hrst : s.sampled.rst = false) (hdone : s.sampled.busDone = true) (herr : s.sampled.busErr = true) :
    step s = .next { s.consume with
      eng := { s.eng with fault := true, faultStep := stepCode s.eng.state, state := .fault }
      target := completeTarget s.params s.sampled s.eng x s.target } := by
  rw [step_of_done s x hx hrst hdone, completeEng_err _ _ _ herr]

/-- Settles O41: the edge is BusFault of the step, whose registers the status word and the ports are read off; the
invariant gives LAST_OP, and R5 the target's frame. -/
theorem busFaultEvent : Obligations.BusFaultEvent := by
  intro s x hx hrst hdone herr
  refine ⟨presented_isBusStep _ _ x hx, _, step_of_failed s x hx hrst hdone herr, rfl,
    status_bit_fault _, status_field_faultStep _, status_field_lastOp _, presented_fault _ _ rfl,
    ?op, ?frame⟩
  case op =>
    rintro ⟨-, -, hflags, -, -⟩
    have hop := lastOp_eq_cOp_of_presented _ s.eng x hflags hx
    exact ⟨(status_field_lastOp _).trans hop, rfl⟩
  case frame =>
    exact fun hwf a ha => read_completeTarget_err_frame _ hwf _ herr _ x _ a ha

end Sys2Proof.Machine
end

section
/-! FAULT lasts until reset (60_exceptions.md R166). -/

namespace Sys2Proof.Machine

/-- Without reset an edge in FAULT does nothing but use up its sample. -/
theorem step_fault (s : State) (hs : s.eng.state = .fault) (hrst : s.sampled.rst = false) :
    step s = .next s.consume := by
  rw [step_of_busy s hrst (by simp [hs]), sequencerEdge_fault _ s.consume hs]

/-- Any number of edges without reset leave FAULT's registers and the target as they are, and complete nothing. -/
theorem run_fault (l rest : List Inputs) (s : State) (hs : s.eng.state = .fault)
    (hin : s.inputs = l ++ rest) (hquiet : quiet l = true) :
    ∃ t, run l.length s = .next t ∧ t.eng = s.eng ∧ t.target = s.target ∧ trace l.length s = [] := by
  induction l generalizing s with
  | nil => exact ⟨s, rfl, rfl, rfl, rfl⟩
  | cons i l ih =>
    obtain ⟨hrst, hquiet⟩ := (quiet_cons i l).1 hquiet
    have hstep := step_fault s hs (by rw [sampled_cons s i (l ++ rest) hin, hrst])
    have hcompletion := completion_of_not_presented s (presented_fault _ _ hs)
    obtain ⟨t, hrun, heng, htarget, htrace⟩ :=
      ih s.consume hs (by rw [consume_inputs, hin]; rfl) hquiet
    refine ⟨t, (run_succ _ _ _ hstep).trans hrun, heng, htarget, ?_⟩
    rw [List.length_cons, trace_succ _ _ _ hstep, hcompletion, htrace]
    rfl

/-- Settles O43: the run through FAULT keeps every register, so the engine is in FAULT at its end too; the reset
edge gives every register its reset value. -/
theorem faultLastsUntilReset : Obligations.FaultLastsUntilReset := by
  intro s hs
  refine ⟨fun n hn hquiet => ?lasts, fun hrst => ⟨_, step_of_rst s hrst, rfl, rfl⟩⟩
  case lasts =>
    obtain ⟨t, hrun, heng, htarget, htrace⟩ :=
      run_fault (s.inputs.take n) (s.inputs.drop n) s hs (List.take_append_drop n _).symm hquiet
    rw [List.length_take_of_le hn] at hrun htrace
    have hfault : t.eng.state = .fault := by rw [heng, hs]
    exact ⟨t, hrun, heng, htarget, htrace, cmdReady_of_busy _ _ (by simp [hfault]),
      presented_fault _ _ hfault⟩

end Sys2Proof.Machine
end

section
/-! The reset edge (70_reset_and_hazards.md R180). -/

namespace Sys2Proof.Machine

/-- `cmd_ready` is 0 while `rst` = 1 (10_state.md R21). -/
theorem cmdReady_of_rst (e : Engine) : cmdReady e true = false := by
  rw [cmdReady, Bool.not_true, Bool.and_false]

/-- No transaction completes at an edge with `rst` = 1, presented or not (10_state.md R20). -/
theorem completion_of_rst (s : State) (h : s.sampled.rst = true) : completion s = none := by
  cases hx : presented s.params s.eng with
  | none => exact completion_of_not_presented s hx
  | some x => simp [completion, hx, h]

/-- Where no transaction is presented, every request output but the address is 0 (10_state.md R21). -/
theorem outputs_busReq_of_not_presented (p : Params) (e : Engine) (rst : Bool)
    (h : presented p e = none) : (outputs p e rst).busReq = ⟨false, 0, 0x40, 0, 0⟩ :=
  congrArg busReq h

/-- Settles O45: the edge is the reset edge, which puts the engine into its reset state; that is IDLE, where
nothing is presented. -/
theorem resetEdgeResetsEveryRegister : Obligations.ResetEdgeResetsEveryRegister := by
  intro s hrst
  have hpresented : presented s.params Engine.reset = none := presented_idle _ _ rfl
  exact ⟨cmdReady_of_rst s.eng, completion_of_rst s hrst, _, step_of_rst s hrst, rfl,
    outputs_busReq_of_not_presented _ _ _ hpresented⟩

end Sys2Proof.Machine
end

section
/-! Decoding and encoding are inverse to each other (30_encoding.md R70, R72, R75). -/

namespace Sys2Proof

/-! ## The decoder, one equation per row of R72 -/

theorem decode_of_opServo (w : Word) (h : fieldOp w = opServo) :
    decode w = .servo (fieldId w) (fieldX w) (fieldY w) (fieldDir w) := by
  rw [decode, if_pos h]

theorem decode_of_opMotor (w : Word) (h : fieldOp w = opMotor) :
    decode w = .motor (fieldId w) (fieldX w) (fieldY w) (fieldDir w) := by
  rw [decode, h]
  rfl

theorem decode_of_opChpwm (w : Word) (h : fieldOp w = opChpwm) :
    decode w = .chpwm (fieldId w) (fieldX w) (fieldY w) (fieldDir w) := by
  rw [decode, h]
  rfl

theorem decode_of_opFreq (w : Word) (h : fieldOp w = opFreq) :
    decode w = .freq (fieldId w) (fieldX w) (fieldY w) (fieldDir w) := by
  rw [decode, h]
  rfl

theorem decode_of_opInit (w : Word) (h : fieldOp w = opInit) :
    decode w = .init (fieldId w) (fieldX w) (fieldY w) (fieldDir w) := by
  rw [decode, h]
  rfl

/-- The five opcodes of R72, listed. -/
theorem isAssignedOp_iff (op : Nibble) : isAssignedOp op = true ↔
    op = opServo ∨ op = opMotor ∨ op = opChpwm ∨ op = opFreq ∨ op = opInit := by
  revert op
  decide

theorem decode_of_unassigned (w : Word) (h : isAssignedOp (fieldOp w) = false) :
    decode w = .illegal (fieldOp w) := by
  have hops := mt (isAssignedOp_iff _).2 (Bool.eq_false_iff.1 h)
  push Not at hops
  obtain ⟨h1, h2, h3, h4, h5⟩ := hops
  rw [decode, if_neg h1, if_neg h2, if_neg h3, if_neg h4, if_neg h5]

/-- Settles O1: each command's word carries the command's fields, and the decoder takes the branch of its
opcode. -/
theorem decodeOfEncodedCommand : Obligations.DecodeOfEncodedCommand := by
  intro i hwf
  cases i with
  | servo => simp [encode, decode_of_opServo]
  | motor => simp [encode, decode_of_opMotor]
  | chpwm => simp [encode, decode_of_opChpwm]
  | freq => simp [encode, decode_of_opFreq]
  | init => simp [encode, decode_of_opInit]
  | illegal op =>
    have hop : isAssignedOp op = false := by simpa [Instr.wellFormed] using hwf
    have hfield : fieldOp (encode (.illegal op)) = op := fieldOp_enc _ _ _ _ _
    rw [decode_of_unassigned _ (by rwa [hfield]), hfield]

/-! ## Encoding what was decoded -/

/-- A word is its six fields joined (30_encoding.md R70). -/
theorem word_eq_fields (w : Word) :
    w = fieldOp w ++ fieldId w ++ fieldX w ++ fieldY w ++ fieldRsv w ++ fieldDir w := by
  simp only [fieldOp, fieldId, fieldX, fieldY, fieldRsv, fieldDir]
  repeat rw [BitVec.extractLsb'_append_extractLsb'_eq_extractLsb' (by decide)]
  exact BitVec.extractLsb'_eq_self.symm

/-- Masking joined fields masks each of them. -/
theorem fields_and_mask (op : Nibble) (id : Byte) (x y : Half) (rsv : BitVec 3) (dir : BitVec 1)
    (mop : Nibble) (mid : Byte) (mx my : Half) (mrsv : BitVec 3) (mdir : BitVec 1) :
    (op ++ id ++ x ++ y ++ rsv ++ dir) &&& (mop ++ mid ++ mx ++ my ++ mrsv ++ mdir)
      = (op &&& mop) ++ (id &&& mid) ++ (x &&& mx) ++ (y &&& my) ++ (rsv &&& mrsv) ++ (dir &&& mdir) := by
  simp only [BitVec.and_append]

/-- Joining a word's fields again clears its reserved bits. -/
theorem enc_fields (w : Word) : enc (fieldOp w) (fieldId w) (fieldX w) (fieldY w) (fieldDir w)
    = w &&& 0xFFFFFFFFFFF1#48 := by
  have hmask : (0xFFFFFFFFFFF1#48 : Word)
      = BitVec.allOnes 4 ++ BitVec.allOnes 8 ++ BitVec.allOnes 16 ++ BitVec.allOnes 16 ++ 0#3
        ++ BitVec.allOnes 1 := by decide
  conv_rhs => rw [word_eq_fields w, hmask]
  rw [fields_and_mask]
  simp only [BitVec.and_allOnes, BitVec.and_zero]
  rfl

/-- The word of an OP alone. -/
theorem enc_fieldOp (w : Word) : enc (fieldOp w) 0 0 0 0 = w &&& 0xF00000000000#48 := by
  have hmask : (0xF00000000000#48 : Word)
      = BitVec.allOnes 4 ++ 0#8 ++ 0#16 ++ 0#16 ++ 0#3 ++ 0#1 := by decide
  conv_rhs => rw [word_eq_fields w, hmask]
  rw [fields_and_mask]
  simp only [BitVec.and_allOnes, BitVec.and_zero]
  rfl

/-- The word of a command with an assigned OP keeps all of its fields but the reserved one. -/
theorem encode_decode_of_assigned (w : Word) (h : isAssignedOp (fieldOp w) = true) :
    encode (decode w) = enc (fieldOp w) (fieldId w) (fieldX w) (fieldY w) (fieldDir w) := by
  obtain h | h | h | h | h := (isAssignedOp_iff _).1 h
  · rw [decode_of_opServo w h, h]; rfl
  · rw [decode_of_opMotor w h, h]; rfl
  · rw [decode_of_opChpwm w h, h]; rfl
  · rw [decode_of_opFreq w h, h]; rfl
  · rw [decode_of_opInit w h, h]; rfl

/-! The assigned opcodes are a range, and the others the rest (30_encoding.md R72, R74). -/
theorem isAssignedOp_of_range (op : Nibble) (h : 1#4 ≤ op ∧ op ≤ 5#4) : isAssignedOp op = true := by
  revert op
  decide

theorem not_isAssignedOp_of_range (op : Nibble) (h : op = 0#4 ∨ 6#4 ≤ op) :
    isAssignedOp op = false := by
  revert op
  decide

/-- Settles O2: the fields kept are joined again, all of them or OP alone, and a word's fields joined are the
word. -/
theorem encodeOfDecodedWord : Obligations.EncodeOfDecodedWord := by
  refine fun w => ⟨fun hop => ?assigned, fun hop => ?unassigned⟩
  case assigned =>
    exact (encode_decode_of_assigned w (isAssignedOp_of_range _ hop)).trans (enc_fields w)
  case unassigned =>
    rw [decode_of_unassigned w (not_isAssignedOp_of_range _ hop)]
    exact enc_fieldOp w

/-- Settles O3: each word's OP field names the branch of the decoder, and its other fields are computed. -/
theorem specWordsDecode : Obligations.SpecWordsDecode := by
  refine ⟨?_, ?_, ?_, ?_, ?_, ?_, ?_, ?_, ?_, ?_, ?_, ?_, ?_, ?_⟩ <;> decide

end Sys2Proof
end

section
/-! The assembler's operands (30_encoding.md R76). -/

namespace Sys2Proof

theorem operand_of_mem {w : Nat} {lo hi v : Int} (h : lo ≤ v ∧ v ≤ hi) :
    operand w lo hi v = some (BitVec.ofInt w v) := if_pos h

theorem operand_of_not_mem {w : Nat} {lo hi v : Int} (h : ¬ (lo ≤ v ∧ v ≤ hi)) :
    operand w lo hi v = none := if_neg h

/-- A line of two operands is refused where either of them is. -/
theorem asmServo_eq_none (sid deg : Int) (h : operandId sid = none ∨ operandSigned deg = none) :
    asmServo sid deg = none := by
  unfold asmServo
  split
  · next hs hd => simp [hs, hd] at h
  · rfl

theorem asmMotor_eq_none (mid : Int) (ccw : Bool) (spd : Int)
    (h : operandId mid = none ∨ operandSigned spd = none) : asmMotor mid ccw spd = none := by
  unfold asmMotor
  split
  · next hm hv => simp [hm, hv] at h
  · rfl

theorem asmChpwm_eq_none (ch on off : Int)
    (h : operandCh ch = none ∨ operandCount on = none ∨ operandCount off = none) :
    asmChpwm ch on off = none := by
  unfold asmChpwm
  split
  · next hc ha hb => simp [hc, ha, hb] at h
  · rfl

/-- The number of an unsigned operand in its range is read back from its bits. -/
theorem toNat_ofInt_eq {w : Nat} {v : Int} (h0 : 0 ≤ v) (h1 : v < 2 ^ w) :
    ((BitVec.ofInt w v).toNat : Int) = v := by
  rw [BitVec.toNat_ofInt, Int.toNat_of_nonneg (Int.emod_nonneg _ (by positivity))]
  exact Int.emod_eq_of_lt h0 (by exact_mod_cast h1)

theorem toInt_ofInt_eq_of_signed16 {v : Int} (h : -32768 ≤ v ∧ v ≤ 32767) :
    (BitVec.ofInt 16 v).toInt = v :=
  BitVec.toInt_ofInt_eq_self (by decide) h.1 (by omega)

theorem toInt_ofInt_eq_of_signed8 {v : Int} (h : -128 ≤ v ∧ v ≤ 127) : (BitVec.ofInt 8 v).toInt = v :=
  BitVec.toInt_ofInt_eq_self (by decide) h.1 (by omega)

/-! Each kind of operand in its range is some bits that read as the number. -/

theorem operandId_of_mem {v : Int} (h : 0 ≤ v ∧ v ≤ 255) :
    ∃ b, operandId v = some b ∧ (b.toNat : Int) = v :=
  ⟨_, operand_of_mem h, toNat_ofInt_eq h.1 (by omega)⟩

theorem operandCh_of_mem {v : Int} (h : -128 ≤ v ∧ v ≤ 127) :
    ∃ b, operandCh v = some b ∧ b.toInt = v :=
  ⟨_, operand_of_mem h, toInt_ofInt_eq_of_signed8 h⟩

theorem operandSigned_of_mem {v : Int} (h : -32768 ≤ v ∧ v ≤ 32767) :
    ∃ b, operandSigned v = some b ∧ b.toInt = v :=
  ⟨_, operand_of_mem h, toInt_ofInt_eq_of_signed16 h⟩

theorem operandCount_of_mem {v : Int} (h : 0 ≤ v ∧ v ≤ 65535) :
    ∃ b, operandCount v = some b ∧ (b.toNat : Int) = v :=
  ⟨_, operand_of_mem h, toNat_ofInt_eq h.1 (by omega)⟩

/-- The assembled word of a command decodes to it and has its reserved bits 0. -/
theorem decode_and_fieldRsv_of_encode (i : Instr) (h : i.wellFormed = true) :
    decode (encode i) = i ∧ fieldRsv (encode i) = 0#3 := by
  refine ⟨decodeOfEncodedCommand i h, ?_⟩
  cases i <;> exact fieldRsv_enc _ _ _ _ _

theorem ofBool_eq_one_iff (b : Bool) : BitVec.ofBool b = 1#1 ↔ b = true := by
  cases b <;> decide

/-- Settles O5: an operand in its range is kept in its field, from which the number is read back; a line is
refused when one of its operands is. -/
theorem assemblerEncodesOrRefuses : Obligations.AssemblerEncodesOrRefuses := by
  refine ⟨fun sid deg => ⟨fun ⟨hs0, hs1, hd⟩ => ?servo, fun h => asmServo_eq_none _ _ ?servoOut⟩,
    fun mid spd ccw => ⟨fun ⟨hm0, hm1, hv⟩ => ?motor, fun h => asmMotor_eq_none _ _ _ ?motorOut⟩,
    fun ch on off => ⟨fun ⟨hc0, hc1, ha0, ha1, hb⟩ => ?chpwm, fun h => asmChpwm_eq_none _ _ _ ?chpwmOut⟩,
    fun hz => ⟨fun h => ?freq, fun h => ?freqOut⟩, rfl,
    fun v => ⟨fun h => ?word, fun h => operand_of_not_mem (by omega)⟩⟩
  case servo =>
    obtain ⟨s, hs, hsv⟩ := operandId_of_mem ⟨hs0, hs1⟩
    obtain ⟨d, hd, hdv⟩ := operandSigned_of_mem hd
    obtain ⟨hdec, hrsv⟩ := decode_and_fieldRsv_of_encode (.servo s d 0 0) rfl
    exact ⟨_, s, d, by simp only [assemble, asmServo, hs, hd]; rfl, hdec, hrsv, hsv, hdv⟩
  case servoOut =>
    by_cases hs : 0 ≤ sid ∧ sid ≤ 255
    · exact .inr (operand_of_not_mem (by omega))
    · exact .inl (operand_of_not_mem hs)
  case motor =>
    obtain ⟨m, hm, hmv⟩ := operandId_of_mem ⟨hm0, hm1⟩
    obtain ⟨v, hv, hvv⟩ := operandSigned_of_mem hv
    obtain ⟨hdec, hrsv⟩ := decode_and_fieldRsv_of_encode (.motor m v 0 (BitVec.ofBool ccw)) rfl
    exact ⟨_, m, v, _, by simp only [assemble, asmMotor, hm, hv]; rfl, hdec, hrsv, hmv, hvv,
      ofBool_eq_one_iff ccw⟩
  case motorOut =>
    by_cases hm : 0 ≤ mid ∧ mid ≤ 255
    · exact .inr (operand_of_not_mem (by omega))
    · exact .inl (operand_of_not_mem hm)
  case chpwm =>
    obtain ⟨c, hc, hcv⟩ := operandCh_of_mem ⟨hc0, hc1⟩
    obtain ⟨a, ha, hav⟩ := operandCount_of_mem ⟨ha0, ha1⟩
    obtain ⟨b, hb, hbv⟩ := operandCount_of_mem hb
    obtain ⟨hdec, hrsv⟩ := decode_and_fieldRsv_of_encode (.chpwm c a b 0) rfl
    exact ⟨_, c, a, b, by simp only [assemble, asmChpwm, hc, ha, hb]; rfl, hdec, hrsv, hcv, hav, hbv⟩
  case chpwmOut =>
    by_cases hc : -128 ≤ ch ∧ ch ≤ 127
    · by_cases ha : 0 ≤ on ∧ on ≤ 65535
      · exact .inr (.inr (operand_of_not_mem (by omega)))
      · exact .inr (.inl (operand_of_not_mem ha))
    · exact .inl (operand_of_not_mem hc)
  case freq =>
    obtain ⟨f, hf, hfv⟩ := operandCount_of_mem h
    obtain ⟨hdec, hrsv⟩ := decode_and_fieldRsv_of_encode (.freq 0 f 0 0) rfl
    exact ⟨_, f, by simp only [assemble, hf, Option.map_some]; rfl, hdec, hrsv, hfv⟩
  case freqOut =>
    have hnone : operandCount hz = none := operand_of_not_mem h
    simp only [assemble, hnone, Option.map_none]
  case word =>
    exact ⟨_, operand_of_mem (by omega), toNat_ofInt_eq (by omega) (by omega)⟩

end Sys2Proof
end

section
/-! The acceptance of each command, as an equation (40_register_driver.md R93; log 22). -/

namespace Sys2Proof.Machine

/-- Settles O7: the arm of `exec` latches the operands by `acceptLegal` and starts `lazyFirst`'s step. -/
theorem servoAcceptance : Obligations.ServoAcceptance := fun _ _ _ _ _ => rfl

/-- Settles O8: as SERVO's, with MOTOR's opcode. -/
theorem motorAcceptance : Obligations.MotorAcceptance := fun _ _ _ _ _ => rfl

/-- Settles O9: the arm of `exec` latches the operands by `acceptLegal` and starts CH_A. -/
theorem chpwmAcceptance : Obligations.ChpwmAcceptance := fun _ _ _ _ _ => rfl

/-- Settles O10: with X not 0 the arm of `exec` takes its legal branch. -/
theorem freqAcceptance : Obligations.FreqAcceptance := fun _ _ _ _ _ hz => if_neg hz

/-- Settles O11: such a command is not legal, and takes what every illegal one takes. -/
theorem freqZeroTakesIllegalCommand : Obligations.FreqZeroTakesIllegalCommand := by
  intro id y dir s
  exact exec_of_not_legal (.freq id 0#16 y dir) s rfl

/-- Settles O12: the arm of `exec` latches the fields by `acceptLegal` and starts I_CLR. -/
theorem initAcceptance : Obligations.InitAcceptance := fun _ _ _ _ _ => rfl

/-- Settles O13: an `illegal` term is not legal, and takes what every illegal command takes. -/
theorem illegalWordTakesIllegalCommand : Obligations.IllegalWordTakesIllegalCommand := by
  intro op s
  exact exec_of_not_legal (.illegal op) s rfl

/-- Settles O14: it is `step` at an offer, on the machine with the sample used up. -/
theorem stepRunsDecodedCommand : Obligations.StepRunsDecodedCommand := by
  rintro s i hidle hrst hvalid rfl
  exact step_of_offer s hrst hidle hvalid

end Sys2Proof.Machine
end

section
/-! Everything one edge can do (40_register_driver.md R92). -/

namespace Sys2Proof.Machine

/-- Where R92 lets the engine hold: without an offer in IDLE, without `bus_done` at a request, and in FAULT. -/
abbrev Holding (s : State) : Prop :=
  (s.eng.state = .idle ∧ s.sampled.cmdValid = false)
  ∨ (presented s.params s.eng ≠ none ∧ s.sampled.busDone = false) ∨ s.eng.state = .fault

/-- The edges of R92, each with the machine it leaves. `step_edge` ties them to `step`. -/
inductive Edge (s : State) : State → Prop
  | reset (hrst : s.sampled.rst = true) : Edge s (resetEdge s.consume)
  | accept (hrst : s.sampled.rst = false) (hidle : s.eng.state = .idle)
      (hvalid : s.sampled.cmdValid = true) (hlegal : (decode s.sampled.cmdData).legal = true) :
      Edge s (s.consume.withEng (acceptLegal (fieldOp s.sampled.cmdData) (fieldId s.sampled.cmdData)
        (fieldX s.sampled.cmdData) (fieldY s.sampled.cmdData) (fieldDir s.sampled.cmdData)
        (firstStep (fieldOp s.sampled.cmdData) s.eng) s.eng))
  | reject (hrst : s.sampled.rst = false) (hidle : s.eng.state = .idle)
      (hvalid : s.sampled.cmdValid = true) (hillegal : (decode s.sampled.cmdData).legal = false) :
      Edge s (s.consume.withEng { s.eng with err := true, lastOp := fieldOp s.sampled.cmdData })
  | hold (hrst : s.sampled.rst = false) (hwhy : Holding s) : Edge s s.consume
  | fail (x : Txn) (hrst : s.sampled.rst = false) (hx : presented s.params s.eng = some x)
      (hdone : s.sampled.busDone = true) (herr : s.sampled.busErr = true) :
      Edge s { s.consume with
        eng := { s.eng with fault := true, faultStep := stepCode s.eng.state, state := .fault }
        target := completeTarget s.params s.sampled s.eng x s.target }
  | done (x : Txn) (hrst : s.sampled.rst = false) (hx : presented s.params s.eng = some x)
      (hdone : s.sampled.busDone = true) (herr : s.sampled.busErr = false) :
      Edge s { s.consume with
        eng := completeEng s.params s.sampled s.eng
        target := completeTarget s.params s.sampled s.eng x s.target }
  | skip (hrst : s.sampled.rst = false) (hchan : s.eng.state = .chA ∨ s.eng.state = .chB)
      (hnone : presented s.params s.eng = none) :
      Edge s (s.consume.withEng (nextStep s.params s.eng))
  | wait (hrst : s.sampled.rst = false) (hwait : s.eng.state = .fWait) :
      Edge s (s.consume.withEng (waitEdge s.eng))

/-- A step that presents a request is not IDLE. -/
theorem ne_idle_of_presented (p : Params) (e : Engine) (h : presented p e ≠ none) : e.state ≠ .idle :=
  fun hidle => h (presented_idle p e hidle)

/-- An edge that holds does nothing but use up its sample. -/
theorem step_of_hold (s : State) (hrst : s.sampled.rst = false) (hwhy : Holding s) :
    step s = .next s.consume := by
  obtain ⟨hidle, hvalid⟩ | ⟨hpres, hdone⟩ | hfault := hwhy
  · exact step_of_no_offer s hrst hidle hvalid
  · obtain ⟨x, hx⟩ := Option.ne_none_iff_exists'.1 hpres
    rw [step_of_busy s hrst (ne_idle_of_presented _ _ hpres), sequencerEdge_hold _ s.consume x hx hdone]
  · exact step_fault s hfault hrst

/-- A channel step that presents nothing goes to its successor. -/
theorem step_of_skip (s : State) (hrst : s.sampled.rst = false)
    (hchan : s.eng.state = .chA ∨ s.eng.state = .chB) (hnone : presented s.params s.eng = none) :
    step s = .next (s.consume.withEng (nextStep s.params s.eng)) := by
  have hbusy : s.eng.state ≠ .idle := by obtain h | h := hchan <;> simp [h]
  rw [step_of_busy s hrst hbusy, sequencerEdge_skip _ s.consume hchan hnone]
  rfl

/-- Every edge has a next state, and is one of R92's. -/
theorem step_edge (s : State) : ∃ t, step s = .next t ∧ Edge s t := by
  cases hrst : s.sampled.rst with
  | true => exact ⟨_, step_of_rst s hrst, .reset hrst⟩
  | false =>
    by_cases hidle : s.eng.state = .idle
    · cases hvalid : s.sampled.cmdValid with
      | true =>
        have hstep := step_of_offer s hrst hidle hvalid
        cases hlegal : (decode s.sampled.cmdData).legal with
        | true => exact ⟨_, hstep.trans (exec_decode_of_legal _ _ hlegal), .accept hrst hidle hvalid hlegal⟩
        | false =>
          have hexec := exec_of_not_legal _ s.consume hlegal
          rw [op_decode] at hexec
          exact ⟨_, hstep.trans hexec, .reject hrst hidle hvalid hlegal⟩
      | false => exact ⟨_, step_of_no_offer s hrst hidle hvalid, .hold hrst (.inl ⟨hidle, hvalid⟩)⟩
    · cases hx : presented s.params s.eng with
      | some x =>
        cases hdone : s.sampled.busDone with
        | false =>
          have hwhy : Holding s := Or.inr (.inl ⟨by simp [hx], hdone⟩)
          exact ⟨_, step_of_hold s hrst hwhy, .hold hrst hwhy⟩
        | true =>
          cases herr : s.sampled.busErr with
          | true => exact ⟨_, step_of_failed s x hx hrst hdone herr, .fail x hrst hx hdone herr⟩
          | false => exact ⟨_, step_of_done s x hx hrst hdone, .done x hrst hx hdone herr⟩
      | none =>
        obtain hi | hwait | hfault | hA | hB := presented_none_state _ _ hx
        · exact absurd hi hidle
        · exact ⟨_, step_fWait s hwait hrst, .wait hrst hwait⟩
        · exact ⟨_, step_fault s hfault hrst, .hold hrst (.inr (.inr hfault))⟩
        · exact ⟨_, step_of_skip s hrst (.inl hA) hx, .skip hrst (.inl hA) hx⟩
        · exact ⟨_, step_of_skip s hrst (.inr hB) hx, .skip hrst (.inr hB) hx⟩

theorem edge_of_step (s t : State) (h : step s = .next t) : Edge s t := by
  obtain ⟨u, hstep, hedge⟩ := step_edge s
  cases hstep.symm.trans h
  exact hedge

/-- Settles O19: every edge is one of the list, and each of them leaves the parameters and uses up one sample. -/
theorem everyEdgeHasNextState : Obligations.EveryEdgeHasNextState := by
  intro s
  obtain ⟨t, hstep, hedge⟩ := step_edge s
  exact ⟨t, hstep, by cases hedge <;> exact ⟨rfl, rfl, rfl⟩⟩

/-- A channel step whose channel is out of range presents nothing (40_register_driver.md R97). -/
theorem presented_chA_out (p : Params) (e : Engine) (c : ChanWrite) (hs : e.state = .chA)
    (hc : chanA e = some c) (hout : c.ch < 0 ∨ 15 < c.ch) : presented p e = none := by
  simp only [presented, hs, hc]
  exact chanTxn_out p c (by omega)

theorem presented_chB_out (p : Params) (e : Engine) (c : ChanWrite) (hs : e.state = .chB)
    (hc : chanB e = some c) (hout : c.ch < 0 ∨ 15 < c.ch) : presented p e = none := by
  simp only [presented, hs, hc]
  exact chanTxn_out p c (by omega)

/-- The successor of CH_A, as a value of `state` (40_register_driver.md R95). -/
theorem nextStep_chA (p : Params) (e : Engine) (hs : e.state = .chA) :
    nextStep p e = { e with state := if e.cOp = 2#4 then .chB else .idle } := by
  by_cases hop : e.cOp = 2#4 <;> simp [nextStep, hs, opMotor, hop]

theorem nextStep_chB (p : Params) (e : Engine) (hs : e.state = .chB) :
    nextStep p e = { e with state := .idle } := by
  simp only [nextStep, hs]

/-- Settles O16: the holds use up a sample alone, and a skipped write takes its step's successor. -/
theorem holdsAndSkippedWrites : Obligations.HoldsAndSkippedWrites := by
  refine fun s hrst => ⟨step_of_hold s hrst, fun c hs hc hout => ?chA, fun c hs hc hout => ?chB⟩
  case chA =>
    have hnone := presented_chA_out s.params s.eng c hs hc hout
    refine ⟨hnone, ?_⟩
    rw [step_of_skip s hrst (.inl hs) hnone, nextStep_chA _ _ hs]
    rfl
  case chB =>
    have hnone := presented_chB_out s.params s.eng c hs hc hout
    refine ⟨hnone, ?_⟩
    rw [step_of_skip s hrst (.inr hs) hnone, nextStep_chB _ _ hs]
    rfl

end Sys2Proof.Machine
end

section
/-! Which registers each operation leaves unchanged (10_state.md R22, R29). -/

namespace Sys2Proof.Machine

/-- A successor writes at most `state`, `wcnt` and `init_done` (40_register_driver.md R95). -/
theorem nextStep_frame (p : Params) (e : Engine) : nextStep p e = { e with
    state := (nextStep p e).state, wcnt := (nextStep p e).wcnt, initDone := (nextStep p e).initDone } := by
  cases hs : e.state
  case fRestart =>
    rw [nextStep_fRestart p e hs]
    split <;> rfl
  case chA => rw [nextStep_chA p e hs]
  case idle | fWait | fault =>
    have hsame : nextStep p e = e := by simp only [nextStep, hs]
    rw [hsame]
  case iClr | fRd | fSleep | fPre | fRestore | chB => simp only [nextStep, hs]

/-- Only F_RESTORE's successor loads `wcnt`. -/
theorem nextStep_wcnt (p : Params) (e : Engine) (h : e.state ≠ .fRestore) :
    (nextStep p e).wcnt = e.wcnt := by
  cases hs : e.state
  case fRestore => exact absurd hs h
  case fRestart =>
    rw [nextStep_fRestart p e hs]
    split <;> rfl
  case chA => rw [nextStep_chA p e hs]
  case idle | iClr | fRd | fSleep | fPre | fWait | chB | fault => simp only [nextStep, hs]

/-- A completion without error writes besides only `oldmode` (40_register_driver.md R94). -/
theorem completeEng_frame (p : Params) (inp : Inputs) (e : Engine) (h : inp.busErr = false) :
    completeEng p inp e = { e with
      state := (completeEng p inp e).state, wcnt := (completeEng p inp e).wcnt,
      initDone := (completeEng p inp e).initDone, oldmode := (completeEng p inp e).oldmode } := by
  by_cases hrd : e.state = .fRd
  · rw [completeEng_fRd p inp e h hrd]
  · rw [completeEng_ok p inp e h hrd, nextStep_frame]

/-- Only F_RD's completion writes `oldmode`. -/
theorem completeEng_oldmode (p : Params) (inp : Inputs) (e : Engine) (h : inp.busErr = false)
    (hs : e.state ≠ .fRd) : (completeEng p inp e).oldmode = e.oldmode := by
  rw [completeEng_ok p inp e h hs, nextStep_frame]

/-- Only F_RESTORE's completion loads `wcnt`. -/
theorem completeEng_wcnt (p : Params) (inp : Inputs) (e : Engine) (h : inp.busErr = false)
    (hs : e.state ≠ .fRestore) : (completeEng p inp e).wcnt = e.wcnt := by
  by_cases hrd : e.state = .fRd
  · rw [completeEng_fRd p inp e h hrd]
  · rw [completeEng_ok p inp e h hrd, nextStep_wcnt p e hs]

/-- An edge of the wait writes at most `state` and `wcnt`, `state` only at its end (40_register_driver.md R96). -/
theorem waitEdge_frame (e : Engine) :
    waitEdge e = { e with state := (waitEdge e).state, wcnt := (waitEdge e).wcnt } := by
  unfold waitEdge
  split <;> rfl

theorem waitEdge_state (e : Engine) (h : e.wcnt ≠ 0) : (waitEdge e).state = e.state := by
  rw [waitEdge_pos e h]

/-- Settles O20: by the edge; each of them writes no register but those its frame lemma leaves out. -/
theorem registersHaveOnlyTheirWriters : Obligations.RegistersHaveOnlyTheirWriters := by
  intro s t hrst hstep
  have hinit := step_initDone s t hstep
  have initDone_kept : ¬ (s.eng.state = .fRestart ∧ (s.eng.cOp = 1#4 ∨ s.eng.cOp = 2#4)
      ∧ s.sampled.busDone = true ∧ s.sampled.busErr = false) → t.eng.initDone = s.eng.initDone := by
    intro hnot
    rw [Bool.eq_iff_iff, hinit]
    simp only [hrst, hnot, true_and, or_false]
  cases edge_of_step s t hstep with
  | reset h => simp [hrst] at h
  | accept _ hidle hvalid hlegal =>
    refine ⟨fun h => absurd ⟨hidle, hvalid, hlegal⟩ h, fun _ => rfl, fun _ _ => rfl,
      fun h => absurd ⟨hidle, hvalid⟩ h, fun _ => ⟨rfl, rfl⟩, initDone_kept,
      fun h => absurd ⟨hidle, hvalid, hlegal⟩ h⟩
  | reject _ hidle hvalid _ =>
    exact ⟨fun _ => ⟨rfl, rfl, rfl, rfl, rfl⟩, fun _ => rfl, fun _ _ => rfl,
      fun h => absurd ⟨hidle, hvalid⟩ h, fun _ => ⟨rfl, rfl⟩, initDone_kept, fun _ _ _ _ => rfl⟩
  | hold =>
    exact ⟨fun _ => ⟨rfl, rfl, rfl, rfl, rfl⟩, fun _ => rfl, fun _ _ => rfl, fun _ => ⟨rfl, rfl⟩,
      fun _ => ⟨rfl, rfl⟩, initDone_kept, fun _ _ _ _ => rfl⟩
  | fail x _ hx hdone herr =>
    have hpres : presented s.params s.eng ≠ none := by simp [hx]
    exact ⟨fun _ => ⟨rfl, rfl, rfl, rfl, rfl⟩, fun _ => rfl, fun _ _ => rfl, fun _ => ⟨rfl, rfl⟩,
      fun h => absurd ⟨hpres, hdone, herr⟩ h, initDone_kept, fun _ h => absurd ⟨hpres, hdone⟩ h⟩
  | done x _ hx hdone herr =>
    have hpres : presented s.params s.eng ≠ none := by simp [hx]
    have hframe := completeEng_frame s.params s.sampled s.eng herr
    refine ⟨fun _ => ?_, fun h => ?_, fun h _ => ?_, fun _ => ?_, fun _ => ?_, initDone_kept,
      fun _ h => absurd ⟨hpres, hdone⟩ h⟩
    · rw [hframe]
      exact ⟨rfl, rfl, rfl, rfl, rfl⟩
    · exact completeEng_oldmode _ _ _ herr fun hs => h ⟨hs, hdone, herr⟩
    · exact completeEng_wcnt _ _ _ herr fun hs => h ⟨hs, hdone, herr⟩
    · rw [hframe]
      exact ⟨rfl, rfl⟩
    · rw [hframe]
      exact ⟨rfl, rfl⟩
  | skip _ hchan hnone =>
    have hframe := nextStep_frame s.params s.eng
    have hnot : s.eng.state ≠ .fRestore := by obtain h | h := hchan <;> simp [h]
    refine ⟨fun _ => ?_, fun _ => ?_, fun _ _ => nextStep_wcnt _ _ hnot, fun _ => ?_, fun _ => ?_,
      initDone_kept, fun _ _ h => absurd ⟨hchan, hnone⟩ h⟩ <;> rw [withEng_eng, hframe]
    · exact ⟨rfl, rfl, rfl, rfl, rfl⟩
    · exact ⟨rfl, rfl⟩
    · exact ⟨rfl, rfl⟩
  | wait _ hwait =>
    have hframe := waitEdge_frame s.eng
    refine ⟨fun _ => ?_, fun _ => ?_, fun _ h => absurd hwait h, fun _ => ?_, fun _ => ?_,
      initDone_kept, fun _ _ _ h => waitEdge_state _ fun h0 => h ⟨hwait, h0⟩⟩ <;>
      rw [withEng_eng, hframe]
    · exact ⟨rfl, rfl, rfl, rfl, rfl⟩
    · exact ⟨rfl, rfl⟩
    · exact ⟨rfl, rfl⟩

end Sys2Proof.Machine
end

section
/-! A request keeps its ports, and the ports are sampled only at the handshakes (10_state.md R20,
70_reset_and_hazards.md R186). -/

namespace Sys2Proof.Machine

/-- Settles O23: without `bus_done` the edge holds, and the request is a function of registers that hold. -/
theorem requestStableUntilDone : Obligations.RequestStableUntilDone := by
  intro s hpres hrst hdone
  obtain ⟨x, hx⟩ := Option.ne_none_iff_exists'.1 hpres
  refine ⟨_, step_of_hold s hrst (.inr (.inl ⟨hpres, hdone⟩)), rfl, ?_⟩
  rw [consume_params, consume_eng, hx]
  cases x <;> rfl

/-- The machine whose next sample is `j` and whose later samples are those of `s`. -/
def resampled (s : State) (j : Inputs) : State := { s with inputs := j :: s.inputs.tail }

@[simp] theorem resampled_consume (s : State) (j : Inputs) : (resampled s j).consume = s.consume := rfl

/-- Two samples with the same `rst` give the same edge where they give the same acceptance in IDLE and the same
sequencer's edge elsewhere. -/
theorem step_resampled (s : State) (j : Inputs) (hrst : s.sampled.rst = j.rst)
    (hcmd : s.sampled.rst = false → s.eng.state = .idle → s.sampled.cmdValid = j.cmdValid
      ∧ (j.cmdValid = true → s.sampled.cmdData = j.cmdData))
    (hbus : s.sampled.rst = false → s.eng.state ≠ .idle →
      sequencerEdge s.sampled s.consume = sequencerEdge j s.consume) :
    step (resampled s j) = step s := by
  cases hr : s.sampled.rst with
  | true => rw [step_of_rst s hr, step_of_rst (resampled s j) (hrst.symm.trans hr),
      resampled_consume]
  | false =>
    have hr' : (resampled s j).sampled.rst = false := hrst.symm.trans hr
    by_cases hidle : s.eng.state = .idle
    · obtain ⟨hvalid, hdata⟩ := hcmd hr hidle
      cases hv : j.cmdValid with
      | true =>
        rw [step_of_offer s hr hidle (hvalid.trans hv), step_of_offer _ hr' hidle hv, hdata hv]
        rfl
      | false => rw [step_of_no_offer s hr hidle (hvalid.trans hv), step_of_no_offer _ hr' hidle hv,
          resampled_consume]
    · rw [step_of_busy s hr hidle, step_of_busy _ hr' hidle, hbus hr hidle]
      rfl

/-- Without a request the sequencer reads no port. -/
theorem sequencerEdge_of_not_presented (i j : Inputs) (s : State) (h : presented s.params s.eng = none) :
    sequencerEdge i s = sequencerEdge j s := by
  simp only [sequencerEdge, h]

/-- Without `bus_done` the sequencer reads no other port. -/
theorem sequencerEdge_of_not_done (i j : Inputs) (s : State) (hi : i.busDone = false)
    (hj : j.busDone = false) : sequencerEdge i s = sequencerEdge j s := by
  cases hx : presented s.params s.eng with
  | none => exact sequencerEdge_of_not_presented i j s hx
  | some x => rw [sequencerEdge_hold i s x hx hi, sequencerEdge_hold j s x hx hj]

/-- The sequencer reads the three bus ports alone, `bus_rdata` only in F_RD. -/
theorem sequencerEdge_congr (i j : Inputs) (s : State) (hdone : i.busDone = j.busDone)
    (herr : i.busErr = j.busErr) (hrd : s.eng.state = .fRd → i.busRdata = j.busRdata) :
    sequencerEdge i s = sequencerEdge j s := by
  have heng : completeEng s.params i s.eng = completeEng s.params j s.eng := by
    by_cases hs : s.eng.state = .fRd
    · simp only [completeEng, herr, hrd hs]
    · simp only [completeEng, herr, if_neg hs]
  unfold sequencerEdge busEdge completeTarget
  rw [hdone, herr, heng]

/-- Settles O24: each clause says which ports the one arm taken reads. -/
theorem portsMatterOnlyAtHandshakes : Obligations.PortsMatterOnlyAtHandshakes := by
  intro s i j rest hin hrst
  obtain rfl := sampled_cons s i rest hin
  have hresampled : ({ s with inputs := j :: rest } : State) = resampled s j := by
    rw [resampled, hin, List.tail_cons]
  rw [hresampled]
  refine ⟨fun hr => ?reset, fun hnone hv hd => ?noRequest, fun hv hd hi hj => ?notDone,
    fun heq hs => ?noRead, fun hbusy hd he hr => ?busy, fun hidle hi hj => ?noOffer⟩
  case reset =>
    exact step_resampled s j hrst (fun h => by simp [hr] at h) (fun h => by simp [hr] at h)
  case noRequest =>
    exact step_resampled s j hrst (fun _ _ => ⟨hv, fun _ => hd⟩)
      fun _ _ => sequencerEdge_of_not_presented _ _ s.consume hnone
  case notDone =>
    exact step_resampled s j hrst (fun _ _ => ⟨hv, fun _ => hd⟩)
      fun _ _ => sequencerEdge_of_not_done _ _ s.consume hi hj
  case noRead =>
    have hfields := (Inputs.mk.injEq ..).mp heq
    obtain ⟨-, hv, hd, hdone, herr, -⟩ := hfields
    exact step_resampled s j hrst (fun _ _ => ⟨hv, fun _ => hd⟩)
      fun _ _ => sequencerEdge_congr _ _ s.consume hdone herr fun h => absurd h hs
  case busy =>
    exact step_resampled s j hrst (fun _ h => absurd h hbusy)
      fun _ _ => sequencerEdge_congr _ _ s.consume hd he fun _ => hr
  case noOffer =>
    exact step_resampled s j hrst (fun _ _ => ⟨hi.trans hj.symm, fun h => by simp [hj] at h⟩)
      fun _ h => absurd hidle h

/-- Settles O25: a legal word leaves IDLE and clears `err`, an illegal one stays and sets it; the status word and
`cmd_ready` are read off those. -/
theorem statusAfterAcceptance : Obligations.StatusAfterAcceptance := by
  intro s hidle hrst hvalid
  have hstep := step_of_offer s hrst hidle hvalid
  cases hlegal : (decode s.sampled.cmdData).legal with
  | true =>
    obtain ⟨id, x, y, dir, first, hfirst, hexec⟩ := exec_of_legal _ s.consume hlegal
    rw [op_decode] at hexec
    refine ⟨_, hstep.trans hexec, status_field_lastOp _, fun _ => ⟨?_, status_bit_err _, ?_⟩, by simp⟩
    · exact (status_bit_busy _).trans ((busy_iff _).2 hfirst)
    · exact cmdReady_of_busy _ _ hfirst
  | false =>
    have hexec := exec_of_not_legal _ s.consume hlegal
    rw [op_decode] at hexec
    refine ⟨_, hstep.trans hexec, status_field_lastOp _, by simp, fun _ => ⟨?_, status_bit_err _, ?_⟩⟩
    · rw [status_bit_busy]
      exact decide_eq_false (not_not.2 hidle)
    · exact cmdReady_of_idle _ hidle

end Sys2Proof.Machine
end

section
/-! The pulse on the servo's own angles, and the prescale (42_servo.md, 40_register_driver.md R99). -/

namespace Sys2Proof.Machine

/-- A count below 4096 is sent as it is, with top nibble 0. -/
theorem low16_of_lt_4096 (v : Int) (h0 : 0 ≤ v) (h1 : v < 4096) :
    (low16 v).extractLsb' 12 4 = 0#4 ∧ ((low16 v).toNat : Int) = v := by
  have hval : ((low16 v).toNat : Int) = v := by
    rw [toNat_low16]
    omega
  refine ⟨BitVec.eq_of_toNat_eq ?_, hval⟩
  rw [BitVec.extractLsb'_toNat, Nat.shiftRight_eq_div_pow]
  simp only [BitVec.toNat_ofNat]
  omega

/-- Settles O28: on these angles the pulse is the floor of its map, from which everything follows linearly. -/
theorem pulseOnTheServoRange : Obligations.PulseOnTheServoRange := by
  intro d e hd hde he
  obtain ⟨hd_low, hd_high⟩ := pulse_floor d (by omega)
  obtain ⟨he_low, he_high⟩ := pulse_floor e (by omega)
  obtain ⟨hnibble, hcount⟩ := low16_of_lt_4096 (pulse d) (by omega) (by omega)
  exact ⟨by omega, by omega, by omega, by omega, hnibble, hcount⟩

/-- The quotient of R99 by its two bounds, with 8192*hz times it kept as one product. -/
theorem prescale_bounds (hz : Nat) (h : 1 ≤ hz) :
    8192 * ((prescale hz + 1) * hz) ≤ 50000000 + 4096 * (hz : Int)
    ∧ 50000000 + 4096 * (hz : Int) < 8192 * ((prescale hz + 1) * hz) + 8192 * (hz : Int) := by
  have hpos : 0 < 8192 * hz := by omega
  have hlow := Nat.div_mul_le_self (50000000 + 4096 * hz) (8192 * hz)
  have hhigh := Nat.lt_div_mul_add (a := 50000000 + 4096 * hz) hpos
  have hq : prescale hz + 1 = ((50000000 + 4096 * hz) / (8192 * hz) : Nat) := sub_add_cancel _ _
  rw [hq]
  have hcomm : ((50000000 + 4096 * hz) / (8192 * hz)) * (8192 * hz)
      = 8192 * ((50000000 + 4096 * hz) / (8192 * hz) * hz) := by ring
  rw [hcomm] at hlow hhigh
  exact ⟨by exact_mod_cast hlow, by exact_mod_cast hhigh⟩

/-- The prescale rounds to the nearest and never meets a tie: 50000000 is no multiple of 4096. -/
theorem prescale_nearest (hz : Nat) (h : 1 ≤ hz) :
    2 * (25000000 - (prescale hz + 1) * (4096 * hz)) < 4096 * (hz : Int)
    ∧ 2 * ((prescale hz + 1) * (4096 * hz) - 25000000) < 4096 * (hz : Int) := by
  obtain ⟨hlow, hhigh⟩ := prescale_bounds hz h
  have hproduct : (prescale hz + 1) * (4096 * hz) = 4096 * ((prescale hz + 1) * hz) := by ring
  rw [hproduct]
  omega

/-- The quotient of R99 against a number, without the division. -/
theorem le_prescale_iff (hz k : Nat) (h : 1 ≤ hz) :
    (k : Int) ≤ prescale hz + 1 ↔ k * (8192 * hz) ≤ 50000000 + 4096 * hz := by
  have hq : prescale hz + 1 = ((50000000 + 4096 * hz) / (8192 * hz) : Nat) := sub_add_cancel _ _
  rw [hq, Int.ofNat_le, Nat.le_div_iff_mul_le (by omega)]

/-- Settles O33: the rounding is the lemma above, and where the byte wraps is read off the quotient's bounds. -/
theorem prescaleRoundsToNearest : Obligations.PrescaleRoundsToNearest := by
  refine ⟨fun hz h1 hmax => ?_, by decide, by decide, by decide, by decide, by decide, by decide⟩
  intro k
  obtain ⟨hlow, hhigh⟩ := prescale_nearest hz h1
  have hnonneg := (le_prescale_iff hz 0 h1).2 (by omega)
  have hq1 := le_prescale_iff hz 1 h1
  have hq257 := le_prescale_iff hz 257 h1
  have hq265 := le_prescale_iff hz 265 h1
  refine ⟨hlow, hhigh, ?byte, by omega, by omega, fun h => ?top⟩
  case byte =>
    rw [prescaleByte, toNat_lowbyte, Int.toNat_of_nonneg (Int.emod_nonneg _ (by decide))]
  case top =>
    have hval : prescale hz = -1 := by omega
    refine ⟨hval, ?_⟩
    rw [prescaleByte, hval]
    decide

/-- The motor of a channel in 0 to 7 is the only one whose pair has it (43_motor.md R140). -/
theorem motor_of_channel (ch : Int) (h0 : 0 ≤ ch) (h7 : ch ≤ 7) (m : Byte) :
    plusCh m = ch ∨ minusCh m = ch ↔ m.toNat = 4 - ch.toNat / 2 := by
  rw [plusCh_eq_minusCh_add_one, minusCh_eq]
  omega

/-- Settles O30: two neighbouring channels make one motor's pair, and the servos' channels begin at 8. -/
theorem motorPairsPartitionChannels : Obligations.MotorPairsPartitionChannels := by
  intro ch h0 h7
  have hmotor := motor_of_channel ch h0 h7
  have hmid : (BitVec.ofNat 8 (4 - ch.toNat / 2)).toNat = 4 - ch.toNat / 2 :=
    Nat.mod_eq_of_lt (by omega)
  refine ⟨⟨BitVec.ofNat 8 (4 - ch.toNat / 2), ⟨by omega, by omega, (hmotor _).2 hmid⟩, fun m _ _ hm => ?_⟩,
    fun m => ?_, fun sid hs1 _ => ?_⟩
  · exact BitVec.eq_of_toNat_eq (((hmotor m).1 hm).trans hmid.symm)
  · rw [plusCh_eq_minusCh_add_one]
    omega
  · rw [servoCh_eq]
    omega

end Sys2Proof.Machine
end

section
/-! What an edge leaves in the target (20_memory.md R51, R66, 70_reset_and_hazards.md R181, R182). -/

namespace Sys2Proof.Machine

/-- Where a step is not the restart write, or the wait was long enough, a step leaves what its transaction left. -/
theorem afterStep_eq (p : Params) (st : SeqState) (m : Memory) (h : st ≠ .fRestart ∨ p.settles) :
    afterStep p st m = m := by
  obtain h | h := h
  · exact if_neg h
  · exact afterStep_of_settles p st m h

/-- Nothing is known of the locations of a failed or withdrawn transaction, whatever the step. -/
theorem read_afterStep_disturbed_touched (p : Params) (st : SeqState) (m : Memory) (x : Txn) (a : Nat)
    (ha : a ∈ x.touched) : Memory.read (afterStep p st (disturbed m x)) a = none := by
  rw [Option.eq_none_iff_forall_ne_some]
  intro v hv
  have hread := read_afterStep p st _ a v hv
  simp [read_disturbed, ha] at hread

/-- The rest of the target is as it was, unless a restart write came after too short a wait (U3). -/
theorem read_afterStep_disturbed_frame (p : Params) (st : SeqState) (m : Memory) (x : Txn) (a : Nat)
    (h : st ≠ .fRestart ∨ p.settles) (ha : a ∉ x.touched) :
    Memory.read (afterStep p st (disturbed m x)) a = Memory.read m a := by
  rw [afterStep_eq p st _ h, read_disturbed, if_neg ha]

/-- A failed completion leaves what a withdrawn request leaves (U6, U7). -/
theorem completeTarget_of_err (p : Params) (inp : Inputs) (h : inp.busErr = true) (e : Engine)
    (x : Txn) (m : Memory) : completeTarget p inp e x m = afterStep p e.state (disturbed m x) := by
  rw [completeTarget, if_pos h]

/-- Under R5 a completion changes no location outside its transaction. -/
theorem read_completeTarget_frame (p : Params) (hwf : p.wf) (inp : Inputs) (e : Engine) (x : Txn)
    (m : Memory) (a : Nat) (ha : a ∉ x.touched) :
    Memory.read (completeTarget p inp e x m) a = Memory.read m a := by
  cases herr : inp.busErr with
  | true => exact read_completeTarget_err_frame p hwf inp herr e x m a ha
  | false => rw [completeTarget_ok p hwf inp herr, read_landed_frame p m x a ha]

/-- Settles O38: reset and a completion disturb the presented transaction's locations alone, and nothing else
writes the target. -/
theorem edgeTouchesOnlyPresentedLocations : Obligations.EdgeTouchesOnlyPresentedLocations := by
  intro s t hwf hstep
  have htarget := step_target s t hstep
  cases hx : presented s.params s.eng with
  | none =>
    simp only [hx] at htarget
    exact ⟨fun a _ => by rw [htarget], fun _ _ => htarget⟩
  | some x =>
    simp only [hx] at htarget
    refine ⟨fun a ha => ?frame, fun hnone hrst => ?kept⟩
    case frame =>
      rw [htarget]
      split_ifs
      · exact read_afterStep_disturbed_frame _ _ _ x a (.inr (settles_of_wf _ hwf)) (ha x rfl)
      · exact read_completeTarget_frame _ hwf _ _ x _ a (ha x rfl)
      · rfl
    case kept =>
      have hdone : s.sampled.busDone = false := by simpa [completion, hx, hrst] using hnone
      simpa [hrst, hdone] using htarget

/-- The mode register is not the prescale register (00_scope.md R5). -/
theorem regMode_ne_regPrescale (p : Params) (h : p.wf) : p.regMode ≠ p.regPrescale := by
  obtain ⟨-, -, -, -, -, -, -, hne, -⟩ := h
  exact hne

/-- The bytes of an acknowledged burst that does not wrap, with auto-increment known set. -/
theorem read_landed_wrBuf (p : Params) (m : Memory) (ptr b1 b2 b3 b4 : Byte) (hptr : ptr.toNat + 3 ≤ 255)
    (hai : modeHas p m p.bitAi = true) (a : Nat) :
    Memory.read (landed p m (.wrBuf ptr b1 b2 b3 b4)) a
      = if a = ptr.toNat then some b1 else if a = ptr.toNat + 1 then some b2
        else if a = ptr.toNat + 2 then some b3 else if a = ptr.toNat + 3 then some b4
        else Memory.read m a := by
  have hmod (k : Nat) (hk : k ≤ 3) : (ptr.toNat + k) % 256 = ptr.toNat + k :=
    Nat.mod_eq_of_lt (by omega)
  simp only [landed, hai, if_true, Memory.writeBurst, read_write, Nat.add_assoc, hmod 1 (by decide),
    hmod 2 (by decide), hmod 3 (by decide), Nat.mod_eq_of_lt ptr.isLt]
  grind

/-- Without auto-increment known set nothing is known of an acknowledged burst's locations (U4; log 10). -/
theorem read_landed_wrBuf_unknown (p : Params) (m : Memory) (ptr b1 b2 b3 b4 : Byte)
    (hai : modeHas p m p.bitAi = false) (a : Nat) :
    Memory.read (landed p m (.wrBuf ptr b1 b2 b3 b4)) a
      = if a ∈ (Txn.wrBuf ptr b1 b2 b3 b4).touched then none else Memory.read m a := by
  simp only [landed, hai, Bool.false_eq_true, if_false, read_forgetAll]

/-- An acknowledged register write, the prescale's with its condition (U1; log 11). -/
theorem read_landed_wrReg (p : Params) (m : Memory) (ptr d : Byte) :
    Memory.read (landed p m (.wrReg ptr d)) ptr.toNat
      = if ptr = p.regPrescale ∧ modeHas p m p.bitSleep = false then none else some d := by
  simp only [landed]
  split_ifs
  · rw [read_forget, if_pos rfl]
  · rw [read_write, if_pos rfl]

/-- The bursts that a step presents do not wrap (00_scope.md R5, 40_register_driver.md R98). -/
theorem wrBuf_ptr_le_of_presented (p : Params) (hwf : p.wf) (e : Engine) (ptr b1 b2 b3 b4 : Byte)
    (h : presented p e = some (.wrBuf ptr b1 b2 b3 b4)) : ptr.toNat + 3 ≤ 255 := by
  obtain ⟨-, ch, hch, hptr, -⟩ := reachesOnlyItsTargetRegisters p e _ hwf h
  have hblock := chBlock_le_of_wf p hwf
  omega

/-- Settles O39: under R5 the edge leaves what the transaction lands, which the lemma of each kind says. -/
theorem acknowledgedTransactionLands : Obligations.AcknowledgedTransactionLands := by
  intro s x hwf hx hrst hdone herr
  refine ⟨_, step_of_done s x hx hrst hdone, ?_⟩
  dsimp only
  rw [completeTarget_ok _ hwf _ herr]
  cases x with
  | wrReg ptr d => exact read_landed_wrReg _ _ _ _
  | wrBuf ptr b1 b2 b3 b4 =>
    have hptr := wrBuf_ptr_le_of_presented _ hwf _ _ _ _ _ _ hx
    refine ⟨fun hai => ?set, fun hai k hk => ?unset⟩
    case set =>
      simp only [read_landed_wrBuf _ _ _ _ _ _ _ hptr hai]
      simp
    case unset =>
      have htouched : ptr.toNat + k ∈ (Txn.wrBuf ptr b1 b2 b3 b4).touched := by
        rw [touched_wrBuf_of_le _ _ _ _ _ hptr]
        simp only [List.mem_cons, List.not_mem_nil, or_false]
        omega
      rw [read_landed_wrBuf_unknown _ _ _ _ _ _ _ hai, if_pos htouched]
  | rdReg ptr => rfl

/-- Settles O42: the failed edge leaves what a withdrawn request leaves. -/
theorem failedTransactionForgetsItsLocations : Obligations.FailedTransactionForgetsItsLocations := by
  intro s x hx hrst hdone herr
  refine ⟨_, step_of_failed s x hx hrst hdone herr, ?_⟩
  dsimp only
  rw [completeTarget_of_err _ _ herr]
  refine ⟨fun a ha => read_afterStep_disturbed_touched _ _ _ x a ha, fun hs hshort => ?_⟩
  rw [hs, afterStep_unsettled _ _ hshort]

/-- Settles O46: a reset edge withdraws the presented request, if any, and leaves what such a request leaves. -/
theorem resetEdgeKeepsTarget : Obligations.ResetEdgeKeepsTarget := by
  intro s hrst
  have hstep := step_of_rst s hrst
  have htarget := step_target s _ hstep
  refine ⟨_, hstep, fun hnone => by simpa [hnone] using htarget, fun x hx => ?_⟩
  simp only [hx, hrst, if_true] at htarget
  rw [htarget]
  refine ⟨fun a ha => read_afterStep_disturbed_touched _ _ _ x a ha,
    fun h a ha => read_afterStep_disturbed_frame _ _ _ x a h ha, fun hs hshort => ?_⟩
  rw [hs, afterStep_unsettled _ _ hshort]

end Sys2Proof.Machine
end

section
/-! The unanswered request (60_exceptions.md R163). -/

namespace Sys2Proof.Machine

theorem silent_cons (i : Inputs) (l : List Inputs) :
    silent (i :: l) = true ↔ (i.rst = false ∧ i.busDone = false) ∧ silent l = true := by
  simp [silent]

/-- No transaction completes without `bus_done` (10_state.md R20). -/
theorem completion_of_not_done (s : State) (h : s.sampled.busDone = false) : completion s = none := by
  cases hx : presented s.params s.eng with
  | none => exact completion_of_not_presented s hx
  | some x => simp [completion, hx, h]

/-- Any number of edges without reset and answer leave a bus step and the target as they are. -/
theorem run_unanswered (l rest : List Inputs) (s : State) (hpres : presented s.params s.eng ≠ none)
    (hin : s.inputs = l ++ rest) (hsilent : silent l = true) :
    ∃ t, run l.length s = .next t ∧ t.eng = s.eng ∧ t.target = s.target ∧ trace l.length s = [] := by
  induction l generalizing s with
  | nil => exact ⟨s, rfl, rfl, rfl, rfl⟩
  | cons i l ih =>
    obtain ⟨⟨hrst, hdone⟩, htail⟩ := (silent_cons i l).1 hsilent
    obtain rfl := sampled_cons s i (l ++ rest) hin
    have hstep := step_of_hold s hrst (.inr (.inl ⟨hpres, hdone⟩))
    obtain ⟨t, hrun, heng, htarget, htrace⟩ :=
      ih s.consume hpres (by rw [consume_inputs, hin]; rfl) htail
    refine ⟨t, (run_succ _ _ _ hstep).trans hrun, heng, htarget, ?_⟩
    rw [List.length_cons, trace_succ _ _ _ hstep, completion_of_not_done s hdone, htrace]
    rfl

/-- Settles O44: the listed samples are a silent run. -/
theorem unansweredRequestHangs : Obligations.UnansweredRequestHangs := by
  intro s n hpres hn hsilent
  have h := run_unanswered (s.inputs.take n) (s.inputs.drop n) s hpres
    (List.take_append_drop n _).symm hsilent
  rwa [List.length_take_of_le hn] at h

/-- Settles O47: `State.reset` has the engine's reset registers. -/
theorem resetValues : Obligations.ResetValues := rfl

end Sys2Proof.Machine
end

section
/-! The step, its command and the flags agree after every edge (10_state.md R29, 41_lazy_init.md R121 to R124). -/

namespace Sys2Proof.Machine

/-! ## What the agreement says in each kind of state -/

theorem flagsAgree_idle_iff (e : Engine) (h : e.state = .idle) : FlagsAgree e ↔
    (e.err = false → e.lastOp = e.cOp)
    ∧ (e.err = true → isAssignedOp e.lastOp = false ∨ e.lastOp = opFreq)
    ∧ e.fault = false ∧ e.faultStep = 0#4 := by
  simp [FlagsAgree, h, opFits, isInitStep]

/-- A step of a command is one of the initialisation's or a channel write. -/
theorem isInitStep_false_iff (st : SeqState) (hi : st ≠ .idle) (hf : st ≠ .fault) :
    isInitStep st = false ↔ st = .chA ∨ st = .chB := by
  cases st <;> simp [isInitStep] at hi hf ⊢

/-- In a step of a command: the command is a legal one of that step, and a public command has `init_done` set
from CH_A on and not before. -/
theorem flagsAgree_running_iff (e : Engine) (hi : e.state ≠ .idle) (hf : e.state ≠ .fault) :
    FlagsAgree e ↔ opFits e.state e.cOp = true ∧ e.err = false ∧ e.lastOp = e.cOp
    ∧ (e.cOp = opFreq → e.cX ≠ 0#16) ∧ e.fault = false ∧ e.faultStep = 0#4
    ∧ (isPublic e.cOp = true → e.initDone = !isInitStep e.state) := by
  have hchan := isInitStep_false_iff e.state hi hf
  constructor
  · rintro ⟨hfit, hlast, herr, hx, hfault, -, hstep, hinit, hdone, -⟩
    have herr' : e.err = false := Bool.eq_false_iff.2 fun h => hi (herr h).1
    refine ⟨hfit, herr', hlast herr', hx hi, Bool.eq_false_iff.2 fun h => hf (hfault.1 h), hstep hf,
      fun hpub => ?_⟩
    cases hk : isInitStep e.state with
    | true => exact hinit hpub hk
    | false => exact hdone hpub (hchan.1 hk)
  · rintro ⟨hfit, herr, hlast, hx, hfault, hstep, hinit⟩
    refine ⟨hfit, fun _ => hlast, by simp [herr], fun _ => hx, by simp [hfault, hf], fun h => absurd h hf,
      fun _ => hstep, fun hpub hk => ?_, fun hpub hk => ?_, fun _ h => absurd h hf⟩
    · rw [hinit hpub, hk]; rfl
    · rw [hinit hpub, hchan.2 hk]; rfl

theorem flagsAgree_fault_iff (e : Engine) (h : e.state = .fault) : FlagsAgree e ↔
    isAssignedOp e.cOp = true ∧ e.err = false ∧ e.lastOp = e.cOp ∧ (e.cOp = opFreq → e.cX ≠ 0#16)
    ∧ e.fault = true ∧ isBusCode e.faultStep = true
    ∧ (isPublic e.cOp = true → e.initDone = decide (0x8#4 ≤ e.faultStep)) := by
  cases herr : e.err <;> simp [FlagsAgree, h, isInitStep, opFits, herr]

/-! ## Each edge keeps it -/

theorem flagsAgree_reset : FlagsAgree Engine.reset :=
  (flagsAgree_idle_iff _ rfl).2 ⟨fun _ => rfl, by simp [Engine.reset], rfl, rfl⟩

/-- The first step of an assigned OP is a step of its command, with `init_done` as R121 asks. -/
theorem firstStep_fits (op : Nibble) (e : Engine) (h : isAssignedOp op = true) :
    firstStep op e ≠ .idle ∧ firstStep op e ≠ .fault ∧ opFits (firstStep op e) op = true
      ∧ (isPublic op = true → e.initDone = !isInitStep (firstStep op e)) := by
  obtain rfl | rfl | rfl | rfl | rfl := (isAssignedOp_iff op).1 h <;> cases hd : e.initDone <;>
    simp [firstStep, hd, opFits, isPublic, isInitStep, opServo, opMotor, opChpwm, opFreq, opInit]

/-- A legal word has an assigned OP (30_encoding.md R74). -/
theorem isAssignedOp_of_legal (w : Word) (h : (decode w).legal = true) :
    isAssignedOp (fieldOp w) = true := by
  by_contra hop
  rw [decode_of_unassigned w (Bool.eq_false_iff.2 hop)] at h
  cases h

/-- A legal FREQ has X not 0 (30_encoding.md R74). -/
theorem fieldX_ne_zero_of_legal_freq (w : Word) (h : (decode w).legal = true) (hop : fieldOp w = opFreq) :
    fieldX w ≠ 0#16 := by
  rw [decode_of_opFreq w hop] at h
  simpa [Instr.legal] using h

theorem flagsAgree_accept (e : Engine) (w : Word) (hidle : e.state = .idle) (h : FlagsAgree e)
    (hlegal : (decode w).legal = true) : FlagsAgree (acceptLegal (fieldOp w) (fieldId w) (fieldX w)
      (fieldY w) (fieldDir w) (firstStep (fieldOp w) e) e) := by
  obtain ⟨-, -, hfault, hstep⟩ := (flagsAgree_idle_iff e hidle).1 h
  obtain ⟨hi, hf, hfit, hinit⟩ := firstStep_fits (fieldOp w) e (isAssignedOp_of_legal w hlegal)
  exact (flagsAgree_running_iff _ hi hf).2
    ⟨hfit, rfl, rfl, fieldX_ne_zero_of_legal_freq w hlegal, hfault, hstep, hinit⟩

/-- The command of an illegal word is unassigned or FREQ (30_encoding.md R74). -/
theorem op_of_not_legal (w : Word) (h : (decode w).legal = false) :
    isAssignedOp (fieldOp w) = false ∨ fieldOp w = opFreq := by
  obtain h0 | h6 | ⟨h4, -⟩ := (decode_not_legal_iff w).1 h
  · exact .inl (not_isAssignedOp_of_range _ (.inl h0))
  · exact .inl (not_isAssignedOp_of_range _ (.inr h6))
  · exact .inr h4

theorem flagsAgree_reject (e : Engine) (w : Word) (hidle : e.state = .idle) (h : FlagsAgree e)
    (hillegal : (decode w).legal = false) : FlagsAgree { e with err := true, lastOp := fieldOp w } := by
  obtain ⟨-, -, hfault, hstep⟩ := (flagsAgree_idle_iff e hidle).1 h
  exact (flagsAgree_idle_iff _ (by exact hidle)).2 ⟨by simp, fun _ => op_of_not_legal w hillegal, hfault, hstep⟩

/-- The codes of the bus steps; CH_A's and CH_B's alone are 8 and above (40_register_driver.md R90). -/
theorem stepCode_of_presented (p : Params) (e : Engine) (x : Txn) (hx : presented p e = some x) :
    isBusCode (stepCode e.state) = true
      ∧ (!isInitStep e.state) = decide (0x8#4 ≤ stepCode e.state) := by
  have hmem := presented_isBusStep p e x hx
  cases hs : e.state <;> simp [hs] at hmem ⊢ <;> decide

/-- The command of every step is one of R72's. -/
theorem isAssignedOp_of_opFits (st : SeqState) (op : Nibble) (hi : st ≠ .idle) (h : opFits st op = true) :
    isAssignedOp op = true := by
  revert op
  cases st
  case idle => exact absurd rfl hi
  all_goals decide

theorem ne_fault_of_presented (p : Params) (e : Engine) (h : presented p e ≠ none) : e.state ≠ .fault :=
  fun hs => h (presented_fault p e hs)

theorem flagsAgree_fail (p : Params) (e : Engine) (x : Txn) (hx : presented p e = some x)
    (h : FlagsAgree e) :
    FlagsAgree { e with fault := true, faultStep := stepCode e.state, state := .fault } := by
  have hpres : presented p e ≠ none := by simp [hx]
  have hi := ne_idle_of_presented p e hpres
  obtain ⟨hfit, herr, hlast, hX, -, -, hinit⟩ :=
    (flagsAgree_running_iff e hi (ne_fault_of_presented p e hpres)).1 h
  obtain ⟨hcode, hge⟩ := stepCode_of_presented p e x hx
  exact (flagsAgree_fault_iff _ rfl).2 ⟨isAssignedOp_of_opFits _ _ hi hfit, herr, hlast, hX, rfl, hcode,
    fun hpub => (hinit hpub).trans hge⟩

/-- The step after a step of a command fits the same command, with `init_done` set as R122 asks, or is IDLE. -/
theorem nextStep_fits (p : Params) (e : Engine) (hi : e.state ≠ .idle) (hf : e.state ≠ .fault)
    (hfit : opFits e.state e.cOp = true) (hinit : isPublic e.cOp = true → e.initDone = !isInitStep e.state) :
    (nextStep p e).state ≠ .fault ∧ opFits (nextStep p e).state e.cOp = true
      ∧ ((nextStep p e).state ≠ .idle → isPublic e.cOp = true →
        (nextStep p e).initDone = !isInitStep (nextStep p e).state) := by
  cases hs : e.state <;> simp only [hs] at hfit hinit hi hf
  case idle => exact absurd rfl hi
  case fault => exact absurd rfl hf
  case iClr =>
    have hmono : ∀ op, opFits .iClr op = true → opFits .fRd op = true := by decide
    simp only [nextStep, hs]
    exact ⟨by simp, hmono _ hfit, fun _ => hinit⟩
  case fRd | fSleep | fPre | fRestore | fWait =>
    simp only [nextStep, hs]
    exact ⟨by simp, hfit, fun _ => hinit⟩
  case fRestart =>
    simp only [nextStep, hs]
    split_ifs with hpub
    · exact ⟨by simp, by simp [opFits, hpub], fun _ _ => rfl⟩
    · exact ⟨by simp, rfl, fun h => absurd rfl h⟩
  case chA =>
    simp only [nextStep, hs]
    split_ifs with hop
    · exact ⟨by simp, by simp [opFits, hop], fun _ => hinit⟩
    · exact ⟨by simp, rfl, fun h => absurd rfl h⟩
  case chB =>
    simp only [nextStep, hs]
    exact ⟨by simp, rfl, fun h => absurd rfl h⟩

theorem flagsAgree_nextStep (p : Params) (e : Engine) (hi : e.state ≠ .idle) (hf : e.state ≠ .fault)
    (h : FlagsAgree e) : FlagsAgree (nextStep p e) := by
  obtain ⟨hfit, herr, hlast, hX, hfault, hstep, hinit⟩ := (flagsAgree_running_iff e hi hf).1 h
  obtain ⟨hf', hfit', hinit'⟩ := nextStep_fits p e hi hf hfit hinit
  rw [nextStep_frame]
  by_cases hidle : (nextStep p e).state = .idle
  · exact (flagsAgree_idle_iff _ (by exact hidle)).2 ⟨fun _ => hlast, by simp [herr], hfault, hstep⟩
  · exact (flagsAgree_running_iff _ (by exact hidle) (by exact hf')).2
      ⟨hfit', herr, hlast, hX, hfault, hstep, hinit' hidle⟩

/-- `oldmode` is no part of the agreement. -/
theorem flagsAgree_oldmode (e : Engine) (b : Byte) : FlagsAgree { e with oldmode := b } ↔ FlagsAgree e :=
  Iff.rfl

theorem flagsAgree_completeEng (p : Params) (inp : Inputs) (e : Engine) (hi : e.state ≠ .idle)
    (hf : e.state ≠ .fault) (herr : inp.busErr = false) (h : FlagsAgree e) :
    FlagsAgree (completeEng p inp e) := by
  unfold completeEng
  rw [herr, if_neg Bool.false_ne_true]
  split
  · exact flagsAgree_nextStep p _ hi hf ((flagsAgree_oldmode e _).2 h)
  · exact flagsAgree_nextStep p e hi hf h

/-- The wait ends in F_RESTART, a step of the same command and before `init_done` too. -/
theorem flagsAgree_waitEdge (e : Engine) (hs : e.state = .fWait) (h : FlagsAgree e) :
    FlagsAgree (waitEdge e) := by
  have hrunning := (flagsAgree_running_iff e (by simp [hs]) (by simp [hs])).1 h
  simp only [hs] at hrunning
  unfold waitEdge
  split
  · exact (flagsAgree_running_iff _ (by simp) (by simp)).2 hrunning
  · exact (flagsAgree_running_iff _ (by simp [hs]) (by simp [hs])).2 (by simpa only [hs] using hrunning)

/-- The agreement after every edge. -/
theorem flagsAgree_edge (s t : State) (hedge : Edge s t) (h : FlagsAgree s.eng) : FlagsAgree t.eng := by
  cases hedge with
  | reset => exact flagsAgree_reset
  | accept _ hidle _ hlegal => exact flagsAgree_accept s.eng _ hidle h hlegal
  | reject _ hidle _ hillegal => exact flagsAgree_reject s.eng _ hidle h hillegal
  | hold => exact h
  | fail x _ hx => exact flagsAgree_fail s.params s.eng x hx h
  | done x _ hx _ herr =>
    have hpres : presented s.params s.eng ≠ none := by simp [hx]
    exact flagsAgree_completeEng _ _ _ (ne_idle_of_presented _ _ hpres) (ne_fault_of_presented _ _ hpres)
      herr h
  | skip _ hchan =>
    have hrun : s.eng.state ≠ .idle ∧ s.eng.state ≠ .fault := by obtain h | h := hchan <;> simp [h]
    exact flagsAgree_nextStep _ _ hrun.1 hrun.2 h
  | wait _ hwait => exact flagsAgree_waitEdge s.eng hwait h

end Sys2Proof.Machine
end

section
/-! The wait counter after every edge (40_register_driver.md R96). -/

namespace Sys2Proof.Machine

/-- A counter of 0 is within every bound. -/
theorem waitBounded_of_zero (p : Params) (hwf : p.wf) (e : Engine) (h : e.wcnt = 0) : WaitBounded p e := by
  have hpos := wait_pos p hwf
  exact ⟨by omega, h ▸ Nat.two_pow_pos _, fun _ => h⟩

/-- F_RESTORE's completion loads WAIT_CYCLES - 1, every other one leaves the counter at 0. -/
theorem waitBounded_completeEng (p : Params) (hwf : p.wf) (inp : Inputs) (e : Engine)
    (herr : inp.busErr = false) (hs : e.state ≠ .fWait) (h : WaitBounded p e) :
    WaitBounded p (completeEng p inp e) := by
  obtain ⟨-, -, hzero⟩ := h
  by_cases hr : e.state = .fRestore
  · rw [completeEng_ok p inp e herr (by simp [hr]), nextStep_fRestore p hwf e hr]
    have hpos := wait_pos p hwf
    exact ⟨Nat.sub_one_lt_of_lt hpos, wait_fits p hwf, fun hne => absurd rfl hne⟩
  · exact waitBounded_of_zero p hwf _ ((completeEng_wcnt p inp e herr hr).trans (hzero hs))

theorem waitBounded_waitEdge (p : Params) (hwf : p.wf) (e : Engine) (hs : e.state = .fWait)
    (h : WaitBounded p e) : WaitBounded p (waitEdge e) := by
  obtain ⟨hlt, hwidth, -⟩ := h
  by_cases h0 : e.wcnt = 0
  · rw [waitEdge_zero e h0]
    exact waitBounded_of_zero p hwf _ h0
  · rw [waitEdge_pos e h0]
    exact ⟨(Nat.sub_le _ _).trans_lt hlt, (Nat.sub_le _ _).trans_lt hwidth, fun hne => absurd hs hne⟩

/-- The counter's bounds after every edge. -/
theorem waitBounded_edge (s t : State) (hwf : s.params.wf) (hedge : Edge s t)
    (h : WaitBounded s.params s.eng) : WaitBounded t.params t.eng := by
  have ⟨_, _, hzero⟩ := h
  cases hedge with
  | reset => exact waitBounded_of_zero _ hwf _ rfl
  | accept _ hidle => exact waitBounded_of_zero _ hwf _ (hzero (by simp [hidle]))
  | reject _ hidle => exact waitBounded_of_zero _ hwf _ (hzero (by simp [hidle]))
  | hold => exact h
  | fail x _ hx =>
    exact waitBounded_of_zero _ hwf _ (hzero fun hs => by simp [presented_fWait _ _ hs] at hx)
  | done x _ hx _ herr =>
    exact waitBounded_completeEng _ hwf _ _ herr (fun hs => by simp [presented_fWait _ _ hs] at hx) h
  | skip _ hchan =>
    have hs : s.eng.state ≠ .fWait ∧ s.eng.state ≠ .fRestore := by obtain h | h := hchan <;> simp [h]
    exact waitBounded_of_zero _ hwf _ ((nextStep_wcnt _ _ hs.2).trans (hzero hs.1))
  | wait _ hwait => exact waitBounded_waitEdge _ hwf _ hwait h

end Sys2Proof.Machine
end

section
/-! What the target is known to hold at each step (40_register_driver.md R100, R101, 41_lazy_init.md R124). -/

namespace Sys2Proof.Machine

/-! ## What the sequence's writes leave -/

/-- A mode write is no prescale write, so its byte always lands. -/
theorem read_landed_mode (p : Params) (hwf : p.wf) (m : Memory) (d : Byte) (a : Nat) :
    Memory.read (landed p m (.wrReg p.regMode d)) a
      = if a = p.regMode.toNat then some d else Memory.read m a := by
  have hne := regMode_ne_regPrescale p hwf
  simp only [landed, hne, false_and, if_false, read_write]

/-- A prescale write lands where the target is known asleep (93_implementation_defined.md U1). -/
theorem read_landed_prescale (p : Params) (m : Memory) (d : Byte) (a : Nat)
    (hsleep : modeHas p m p.bitSleep = true) :
    Memory.read (landed p m (.wrReg p.regPrescale d)) a
      = if a = p.regPrescale.toNat then some d else Memory.read m a := by
  simp only [landed, hsleep, Bool.true_eq_false, and_false, if_false, read_write]

theorem regMode_toNat_ne_regPrescale_toNat (p : Params) (hwf : p.wf) :
    p.regMode.toNat ≠ p.regPrescale.toNat :=
  fun h => regMode_ne_regPrescale p hwf (BitVec.eq_of_toNat_eq h)

theorem modeHas_of_read (p : Params) (m : Memory) (bit v : Byte)
    (hread : Memory.read m p.regMode.toNat = some v) (hbit : v &&& bit = bit) :
    modeHas p m bit = true := by
  simp only [modeHas, hread, hbit, decide_true]

/-- What is known of a mode bit is read from the mode register alone. -/
theorem modeHas_congr (p : Params) (m k : Memory) (bit : Byte)
    (h : Memory.read m p.regMode.toNat = Memory.read k p.regMode.toNat) :
    modeHas p m bit = modeHas p k bit := by
  simp only [modeHas, h]

/-- The sleep byte makes the target known asleep. -/
theorem modeHas_sleepVal (p : Params) (m : Memory) (v : Byte)
    (h : Memory.read m p.regMode.toNat = some (sleepVal p v)) : modeHas p m p.bitSleep = true :=
  modeHas_of_read p m _ _ h (or_and_mask _ _)

/-- The restart byte makes restart and auto-increment known set. -/
theorem modeHas_restartVal (p : Params) (m : Memory) (v : Byte)
    (h : Memory.read m p.regMode.toNat = some (restartVal p v)) :
    modeHas p m p.bitAi = true ∧ modeHas p m p.bitRestart = true :=
  ⟨modeHas_of_read p m _ _ h (or_and_mask _ _), modeHas_of_read p m _ _ h (restartVal_and_bitRestart p v)⟩

/-- No burst touches the mode register (00_scope.md R5). -/
theorem regMode_not_mem_touched_chWrite (p : Params) (hwf : p.wf) (c : ChanWrite)
    (hc : 0 ≤ c.ch ∧ c.ch ≤ 15) : p.regMode.toNat ∉ (chWrite p c).touched := by
  have hptr := toNat_chWrite_ptr p hwf c.ch hc
  have hblock := chBlock_le_of_wf p hwf
  obtain ⟨-, -, -, -, -, -, -, -, hout, -⟩ := hwf
  rw [chWrite, touched_wrBuf_of_le _ _ _ _ _ (by omega), hptr]
  simp only [List.mem_cons, List.not_mem_nil, or_false]
  unfold Params.inChannels at hout
  omega

/-- A channel step presents its operands' write, in CH_A and in CH_B. -/
theorem chWrite_of_presented_chan (p : Params) (e : Engine) (x : Txn) (hs : e.state = .chA ∨ e.state = .chB)
    (hx : presented p e = some x) : ∃ c : ChanWrite, (0 ≤ c.ch ∧ c.ch ≤ 15) ∧ x = chWrite p c := by
  have hchan : ∃ o, chanTxn p o = some x := by
    obtain hs | hs := hs <;> simp only [presented, hs] at hx
    · exact ⟨_, hx⟩
    · exact ⟨_, hx⟩
  obtain ⟨o, ho⟩ := hchan
  obtain ⟨c, -, hc, rfl⟩ := (chanTxn_eq_some_iff p o x).1 ho
  exact ⟨c, hc, rfl⟩

/-! ## Each edge keeps it -/

/-- In IDLE and the channel steps the target's part of the invariant is what an initialised target has. -/
theorem targetFollows_of_initialised (p : Params) (m : Memory) (e : Engine)
    (hs : e.state = .idle ∨ e.state = .chA ∨ e.state = .chB)
    (h : e.initDone = true → modeHas p m p.bitAi = true ∧ modeHas p m p.bitRestart = true) :
    TargetFollows p m e := by
  obtain hs | hs | hs := hs <;> simpa [TargetFollows, hs] using h

/-- A faulty engine, one about to clear the mode, and one reading it for FREQ, claim nothing of the target. -/
theorem targetFollows_of_no_claim (p : Params) (m : Memory) (e : Engine)
    (hs : e.state = .fault ∨ e.state = .iClr ∨ (e.state = .fRd ∧ e.cOp = opFreq)) :
    TargetFollows p m e := by
  obtain hs | hs | ⟨hs, hop⟩ := hs
  · simp [TargetFollows, hs]
  · simp [TargetFollows, hs]
  · simp [TargetFollows, hs, hop]

/-- A legal word's first step, with what the invariant asks of it. -/
theorem targetFollows_accept (p : Params) (m : Memory) (e : Engine) (w : Word) (hidle : e.state = .idle)
    (hlegal : (decode w).legal = true) (h : TargetFollows p m e) : TargetFollows p m (acceptLegal (fieldOp w)
      (fieldId w) (fieldX w) (fieldY w) (fieldDir w) (firstStep (fieldOp w) e) e) := by
  obtain ⟨-, -, -, -, hinit⟩ := h
  have initialised (hfirst : firstStep (fieldOp w) e = .chA) := targetFollows_of_initialised p m
    (acceptLegal (fieldOp w) (fieldId w) (fieldX w) (fieldY w) (fieldDir w) (firstStep (fieldOp w) e) e)
    (.inr (.inl hfirst)) (hinit (.inl hidle))
  obtain hop | hop | hop | hop | hop := (isAssignedOp_iff _).1 (isAssignedOp_of_legal w hlegal)
  case inr.inr.inl => exact initialised (by rw [hop]; rfl)
  case inr.inr.inr.inl =>
    exact targetFollows_of_no_claim _ _ _ (.inr (.inr ⟨by rw [hop]; rfl, hop⟩))
  case inr.inr.inr.inr => exact targetFollows_of_no_claim _ _ _ (.inr (.inl (by rw [hop]; rfl)))
  all_goals
    cases hd : e.initDone with
    | true => exact initialised (by rw [hop]; simp [firstStep, hd, opServo, opMotor])
    | false =>
      exact targetFollows_of_no_claim _ _ _ (.inr (.inl (by rw [hop]; simp [firstStep, hd, opServo, opMotor])))

/-- Each step of the sequence leaves in the target what the next step's claim is. -/
theorem targetFollows_done (p : Params) (hwf : p.wf) (m : Memory) (inp : Inputs) (e : Engine) (x : Txn)
    (hx : presented p e = some x) (herr : inp.busErr = false) (h : TargetFollows p m e) :
    TargetFollows p (landed p m x) (completeEng p inp e) := by
  obtain ⟨hclear, hasleep, hrestored, hprescale, hinit⟩ := h
  have hne := regMode_toNat_ne_regPrescale_toNat p hwf
  have hchan (hs : e.state = .chA ∨ e.state = .chB) (bit : Byte) :
      modeHas p (landed p m x) bit = modeHas p m bit := by
    obtain ⟨c, hc, rfl⟩ := chWrite_of_presented_chan p e x hs hx
    exact modeHas_congr _ _ _ _ (read_landed_frame _ _ _ _ (regMode_not_mem_touched_chWrite p hwf c hc))
  cases hs : e.state
  case idle | fWait | fault => simp [presented, hs] at hx
  case iClr =>
    obtain rfl : .wrReg p.regMode 0x00#8 = x := by simpa [presented, hs] using hx
    rw [completeEng_ok _ _ _ herr (by simp [hs])]
    simp [TargetFollows, nextStep, hs, read_landed_mode p hwf]
  case fRd =>
    obtain rfl : .rdReg p.regMode = x := by simpa [presented, hs] using hx
    rw [completeEng_fRd _ _ _ herr hs]
    simpa [TargetFollows, hs, landed] using hclear
  case fSleep =>
    obtain rfl : .wrReg p.regMode (sleepVal p e.oldmode) = x := by simpa [presented, hs] using hx
    rw [completeEng_ok _ _ _ herr (by simp [hs])]
    simp [TargetFollows, nextStep, hs, read_landed_mode p hwf, sleepVal]
  case fPre =>
    obtain rfl : .wrReg p.regPrescale (prescaleByte (seqHz e)) = x := by simpa [presented, hs] using hx
    rw [completeEng_ok _ _ _ herr (by simp [hs])]
    have hread := hasleep (.inl hs)
    have hsleep := modeHas_sleepVal p m e.oldmode hread
    simp [TargetFollows, nextStep, hs, read_landed_prescale p m _ _ hsleep, hne, hread, seqHz]
  case fRestore =>
    obtain rfl : .wrReg p.regMode e.oldmode = x := by simpa [presented, hs] using hx
    rw [completeEng_ok _ _ _ herr (by simp [hs])]
    simp [TargetFollows, nextStep, hs, read_landed_mode p hwf, hne.symm, hprescale, seqHz]
  case fRestart =>
    obtain rfl : .wrReg p.regMode (restartVal p e.oldmode) = x := by simpa [presented, hs] using hx
    rw [completeEng_ok _ _ _ herr (by simp [hs]), nextStep_fRestart _ _ hs]
    have hread := (read_landed_mode p hwf m (restartVal p e.oldmode) _).trans (if_pos rfl)
    split_ifs
    · exact targetFollows_of_initialised _ _ _ (.inr (.inl rfl)) fun _ => modeHas_restartVal _ _ _ hread
    · exact targetFollows_of_initialised _ _ _ (.inl rfl) fun _ => modeHas_restartVal _ _ _ hread
  case chA =>
    rw [completeEng_ok _ _ _ herr (by simp [hs]), nextStep_chA _ _ hs]
    refine targetFollows_of_initialised _ _ _ ?_ ?_
    · by_cases hop : e.cOp = 2#4 <;> simp [hop]
    · rw [hchan (.inl hs), hchan (.inl hs)]
      exact hinit (.inr (.inl hs))
  case chB =>
    rw [completeEng_ok _ _ _ herr (by simp [hs]), nextStep_chB _ _ hs]
    refine targetFollows_of_initialised _ _ _ (.inl rfl) ?_
    rw [hchan (.inr hs), hchan (.inr hs)]
    exact hinit (.inr (.inr hs))

/-- A skipped write goes on to CH_B or IDLE over the same target. -/
theorem targetFollows_skip (p : Params) (m : Memory) (e : Engine) (hs : e.state = .chA ∨ e.state = .chB)
    (h : TargetFollows p m e) : TargetFollows p m (nextStep p e) := by
  obtain ⟨-, -, -, -, hinit⟩ := h
  have hinit' := hinit (.inr hs)
  obtain hs | hs := hs
  · rw [nextStep_chA _ _ hs]
    refine targetFollows_of_initialised _ _ _ ?_ hinit'
    by_cases hop : e.cOp = 2#4 <;> simp [hop]
  · rw [nextStep_chB _ _ hs]
    exact targetFollows_of_initialised _ _ _ (.inl rfl) hinit'

/-- The wait and its end claim the same. -/
theorem targetFollows_waitEdge (p : Params) (m : Memory) (e : Engine) (hs : e.state = .fWait)
    (h : TargetFollows p m e) : TargetFollows p m (waitEdge e) := by
  by_cases h0 : e.wcnt = 0
  · rw [waitEdge_zero e h0]
    simpa [TargetFollows, hs, seqHz] using h
  · rw [waitEdge_pos e h0]
    exact h

/-- The target's part after every edge. -/
theorem targetFollows_edge (s t : State) (hwf : s.params.wf) (hedge : Edge s t)
    (h : TargetFollows s.params s.target s.eng) : TargetFollows t.params t.target t.eng := by
  cases hedge with
  | reset => exact targetFollows_of_initialised _ _ _ (.inl rfl) (by simp [Engine.reset])
  | accept _ hidle _ hlegal => exact targetFollows_accept _ _ _ _ hidle hlegal h
  | reject _ hidle =>
    obtain ⟨-, -, -, -, hinit⟩ := h
    exact targetFollows_of_initialised _ _ _ (.inl hidle) (hinit (.inl hidle))
  | hold => exact h
  | fail => exact targetFollows_of_no_claim _ _ _ (.inl rfl)
  | done x _ hx _ herr =>
    dsimp only [consume_params]
    rw [completeTarget_ok _ hwf _ herr]
    exact targetFollows_done _ hwf _ _ _ x hx herr h
  | skip _ hchan => exact targetFollows_skip _ _ _ hchan h
  | wait _ hwait => exact targetFollows_waitEdge _ _ _ hwait h

/-! ## The invariant -/

/-- The target's list keeps its canonical form over every edge. -/
theorem wf_target_edge (s t : State) (hedge : Edge s t) (h : Memory.wf s.target = true) :
    Memory.wf t.target = true := by
  cases hedge with
  | reset => exact wf_resetEdge s.consume h
  | fail | done => exact wf_completeTarget _ _ _ _ _ h
  | accept | reject | hold | skip | wait => exact h

/-- Settles O49: each part of the invariant is kept by each kind of edge. -/
theorem everyEdgeKeepsInvariant : Obligations.EveryEdgeKeepsInvariant := by
  rintro s t ⟨hwf, hmem, hflags, hwait, htarget⟩ hstep
  have hedge := edge_of_step s t hstep
  have hparams : t.params = s.params := by cases hedge <;> rfl
  exact ⟨hparams ▸ hwf, wf_target_edge s t hedge hmem, flagsAgree_edge s t hedge hflags,
    waitBounded_edge s t hwf hedge hwait, targetFollows_edge s t hwf hedge htarget⟩

/-- The invariant at reset, for one choice of parameters. -/
theorem inv_resetWith (p : Params) (hwf : p.wf) : Inv (State.resetWith p) :=
  ⟨hwf, rfl, flagsAgree_reset, waitBounded_of_zero p hwf _ rfl,
    targetFollows_of_initialised _ _ _ (.inl rfl) (by simp [Engine.reset])⟩

/-- Settles O48: at reset the engine is IDLE with its flags and its counter 0, and nothing is claimed of the
target; the parameters of `State.reset` meet R5 too. -/
theorem invariantAtReset : Obligations.InvariantAtReset := by
  refine ⟨inv_resetWith, ?_⟩
  unfold State.reset
  exact inv_resetWith _ params_wf

end Sys2Proof.Machine
end

section
/-! Two machines that differ only in latched fields nothing reads (30_encoding.md R75): each operation commutes
with replacing those fields. -/

namespace Sys2Proof.Machine

/-- The engine `e` with the latched fields of `g`. -/
def relatch (e g : Engine) : Engine :=
  { e with cOp := g.cOp, cId := g.cId, cX := g.cX, cY := g.cY, cDir := g.cDir }

/-- The machine `s` with the latched fields of `g`. -/
def State.relatched (s : State) (g : Engine) : State := s.withEng (relatch s.eng g)

@[simp] theorem relatched_params (s : State) (g : Engine) : (s.relatched g).params = s.params := rfl
@[simp] theorem relatched_eng (s : State) (g : Engine) : (s.relatched g).eng = relatch s.eng g := rfl
@[simp] theorem relatched_target (s : State) (g : Engine) : (s.relatched g).target = s.target := rfl
@[simp] theorem relatched_sampled (s : State) (g : Engine) : (s.relatched g).sampled = s.sampled := rfl

/-- Machines running the same command are one machine with two sets of latched fields, which agree on the
operands while a command is in progress. -/
theorem sameCommand_iff (s t : State) : SameCommand s t ↔
    ∃ g, t = s.relatched g ∧ (s.eng.state ≠ .idle → s.eng.state ≠ .fault → sameOperands s.eng g) := by
  constructor
  · rintro ⟨hparams, htarget, hinputs, hedge, hstate, hold, hwcnt, hinit, herr, hfault, hfs, hlast, hop⟩
    refine ⟨t.eng, ?_, hop⟩
    simp only [State.relatched, State.withEng, relatch, hparams, htarget, hinputs, hedge, hstate, hold,
      hwcnt, hinit, herr, hfault, hfs, hlast]
  · rintro ⟨g, rfl, hop⟩
    exact ⟨rfl, rfl, rfl, rfl, rfl, rfl, rfl, rfl, rfl, rfl, rfl, rfl, hop⟩

theorem sameCommand_relatched (s : State) (g : Engine)
    (h : s.eng.state ≠ .idle → s.eng.state ≠ .fault → sameOperands s.eng g) :
    SameCommand s (s.relatched g) := (sameCommand_iff s _).2 ⟨g, rfl, h⟩

theorem sameOperands_refl (e : Engine) : sameOperands e e := by
  simp [sameOperands]

theorem sameCommand_refl (s : State) : SameCommand s s :=
  sameCommand_relatched s s.eng fun _ _ => sameOperands_refl _

/-! ## The accepted words -/

/-- Whether a word is legal depends on OP and, for FREQ, X (30_encoding.md R74). -/
theorem legal_eq_of_sameButIgnored (w v : Word) (h : sameButIgnored w v) :
    (decode w).legal = (decode v).legal := by
  obtain ⟨hop, -, -, -, hfreq⟩ := h
  rw [Bool.eq_iff_iff, decode_legal_iff, decode_legal_iff, ← hop]
  by_cases h4 : fieldOp w = 4#4
  · rw [hfreq h4]
  · simp only [h4, false_and]

/-- The acceptance of two words that are the same command. -/
theorem exec_sameButIgnored (w v : Word) (s : State) (h : sameButIgnored w v) :
    ∃ a b, exec (decode w) s = .next a ∧ exec (decode v) s = .next b ∧ SameCommand a b := by
  have hlegal := legal_eq_of_sameButIgnored w v h
  obtain ⟨hop, hoperands⟩ := h
  cases hw : (decode w).legal with
  | true =>
    have hv := exec_decode_of_legal v s (hlegal.symm.trans hw)
    rw [← hop] at hv
    exact ⟨_, _, exec_decode_of_legal w s hw, hv,
      rfl, rfl, rfl, rfl, rfl, rfl, rfl, rfl, rfl, rfl, rfl, rfl, fun _ _ => ⟨rfl, hoperands⟩⟩
  | false =>
    have hv := exec_of_not_legal (decode v) s (hlegal.symm.trans hw)
    rw [op_decode, ← hop, ← op_decode] at hv
    exact ⟨_, _, exec_of_not_legal _ s hw, hv, sameCommand_refl _⟩

/-! ## The ports and the edges -/

/-- The operands of the channel steps are among those compared (30_encoding.md R73). -/
theorem chanA_relatch (e g : Engine) (h : sameOperands e g) : chanA (relatch e g) = chanA e := by
  obtain ⟨hop, hservo, hmotor, hchpwm, -⟩ := h
  unfold chanA relatch
  rw [← hop]
  split_ifs with h1 h2 h3
  · obtain ⟨hid, hx⟩ := hservo h1
    rw [hid, hx]
  · obtain ⟨hid, hx, hdir⟩ := hmotor h2
    rw [hid, hx, hdir]
  · obtain ⟨hid, hx, hy⟩ := hchpwm h3
    rw [hid, hx, hy]
  · rfl

theorem chanB_relatch (e g : Engine) (h : sameOperands e g) : chanB (relatch e g) = chanB e := by
  obtain ⟨hop, -, hmotor, -, -⟩ := h
  unfold chanB relatch
  rw [← hop]
  split_ifs with h2
  · obtain ⟨hid, hx, hdir⟩ := hmotor h2
    rw [hid, hx, hdir]
  · rfl

theorem seqHz_relatch (e g : Engine) (h : sameOperands e g) : seqHz (relatch e g) = seqHz e := by
  obtain ⟨hop, -, -, -, hfreq⟩ := h
  unfold seqHz relatch
  rw [← hop]
  split_ifs with h4
  · rw [hfreq h4]
  · rfl

/-- The request is a function of the step and the operands. -/
theorem presented_relatch (p : Params) (e g : Engine)
    (h : e.state ≠ .idle → e.state ≠ .fault → sameOperands e g) :
    presented p (relatch e g) = presented p e := by
  have hstate : (relatch e g).state = e.state := rfl
  have hold : (relatch e g).oldmode = e.oldmode := rfl
  unfold presented
  rw [hstate, hold]
  cases hs : e.state <;> simp only [hs] at h
  case chA => simp only [chanA_relatch e g (h (by simp) (by simp))]
  case chB => simp only [chanB_relatch e g (h (by simp) (by simp))]
  case fPre => simp only [seqHz_relatch e g (h (by simp) (by simp))]
  case idle | iClr | fRd | fSleep | fRestore | fWait | fRestart | fault => rfl

/-- The successor of a step reads no latched field but `c_op` (40_register_driver.md R95). -/
theorem nextStep_relatch (p : Params) (e g : Engine) (hop : e.cOp = g.cOp) :
    nextStep p (relatch e g) = relatch (nextStep p e) g := by
  cases hs : e.state
  case fRestart | chA =>
    simp only [nextStep, relatch, hs, ← hop]
    split_ifs <;> rfl
  case idle | iClr | fRd | fSleep | fPre | fRestore | fWait | chB | fault =>
    simp only [nextStep, relatch, hs]

theorem completeEng_relatch (p : Params) (inp : Inputs) (e g : Engine) (hop : e.cOp = g.cOp) :
    completeEng p inp (relatch e g) = relatch (completeEng p inp e) g := by
  have hstate : (relatch e g).state = e.state := rfl
  unfold completeEng
  rw [hstate]
  split_ifs
  · rfl
  · exact nextStep_relatch p { e with oldmode := inp.busRdata } g hop
  · exact nextStep_relatch p e g hop

theorem waitEdge_relatch (e g : Engine) : waitEdge (relatch e g) = relatch (waitEdge e) g := by
  unfold waitEdge relatch
  split_ifs <;> rfl

/-- A reset edge leaves no latched field, and withdraws the same request. -/
theorem resetEdge_relatched (s : State) (g : Engine)
    (h : s.eng.state ≠ .idle → s.eng.state ≠ .fault → sameOperands s.eng g) :
    resetEdge (s.relatched g) = resetEdge s := by
  have hstate : (relatch s.eng g).state = s.eng.state := rfl
  unfold resetEdge
  simp only [relatched_params, relatched_eng, relatched_target, presented_relatch s.params s.eng g h, hstate]
  rfl

/-- Every edge takes both machines to machines of the same command. -/
theorem step_relatched (s a : State) (g : Engine)
    (hop : s.eng.state ≠ .idle → s.eng.state ≠ .fault → sameOperands s.eng g) (hedge : Edge s a) :
    ∃ b, step (s.relatched g) = .next b ∧ SameCommand a b := by
  have hpres := presented_relatch s.params s.eng g hop
  cases hedge with
  | reset hrst =>
    refine ⟨_, step_of_rst (s.relatched g) hrst, ?_⟩
    rw [show (s.relatched g).consume = s.consume.relatched g from rfl, resetEdge_relatched s.consume g hop]
    exact sameCommand_refl _
  | accept hrst hidle hvalid hlegal =>
    exact ⟨_, (step_of_offer (s.relatched g) hrst hidle hvalid).trans
      (exec_decode_of_legal _ (s.relatched g).consume hlegal), sameCommand_refl _⟩
  | reject hrst hidle hvalid hillegal =>
    have hexec := exec_of_not_legal _ (s.relatched g).consume hillegal
    rw [op_decode] at hexec
    exact ⟨_, (step_of_offer (s.relatched g) hrst hidle hvalid).trans hexec,
      sameCommand_relatched _ g fun h => absurd hidle h⟩
  | hold hrst hwhy =>
    exact ⟨_, step_of_hold (s.relatched g) hrst (by rwa [Holding, relatched_params, relatched_eng, hpres]),
      sameCommand_relatched s.consume g hop⟩
  | fail x hrst hx hdone herr =>
    exact ⟨_, step_of_failed (s.relatched g) x (hpres.trans hx) hrst hdone herr,
      sameCommand_relatched _ g fun _ h => absurd rfl h⟩
  | done x hrst hx hdone herr =>
    have hne : presented s.params s.eng ≠ none := by simp [hx]
    have hsame@⟨hcOp, _⟩ := hop (ne_idle_of_presented _ _ hne) (ne_fault_of_presented _ _ hne)
    refine ⟨_, step_of_done (s.relatched g) x (hpres.trans hx) hrst hdone, ?_⟩
    refine (sameCommand_iff _ _).2 ⟨g, ?_, fun _ _ => ?_⟩
    · simp only [relatched_params, relatched_eng, relatched_sampled, completeEng_relatch _ _ _ _ hcOp]
      rfl
    · dsimp only
      rw [completeEng_frame _ _ _ herr]
      exact hsame
  | skip hrst hchan hnone =>
    have hrun : s.eng.state ≠ .idle ∧ s.eng.state ≠ .fault := by obtain h | h := hchan <;> simp [h]
    have hsame@⟨hcOp, _⟩ := hop hrun.1 hrun.2
    refine ⟨_, step_of_skip (s.relatched g) hrst hchan (hpres.trans hnone), ?_⟩
    refine (sameCommand_iff _ _).2 ⟨g, ?_, fun _ _ => ?_⟩
    · rw [relatched_eng, nextStep_relatch _ _ _ hcOp]
      rfl
    · rw [withEng_eng, nextStep_frame]
      exact hsame
  | wait hrst hwait =>
    have hsame := hop (by simp [hwait]) (by simp [hwait])
    refine ⟨_, step_fWait (s.relatched g) hwait hrst, ?_⟩
    refine (sameCommand_iff _ _).2 ⟨g, ?_, fun _ _ => ?_⟩
    · rw [relatched_eng, waitEdge_relatch]
      rfl
    · rw [withEng_eng, waitEdge_frame]
      exact hsame

/-- Settles O60: the words' acceptances are compared above; of two machines of the same command one is the other
with other latched fields, with which the request, so every output, and every edge commute. -/
theorem ignoredBitsHaveNoEffect : Obligations.IgnoredBitsHaveNoEffect := by
  refine ⟨exec_sameButIgnored, fun s t h => ?_⟩
  obtain ⟨g, rfl, hop⟩ := (sameCommand_iff s t).1 h
  have hpres := presented_relatch s.params s.eng g hop
  obtain ⟨a, hstep, hedge⟩ := step_edge s
  obtain ⟨b, hstep', hsame⟩ := step_relatched s a g hop hedge
  refine ⟨fun rst => ?_, ?_, a, b, hstep, hstep', hsame⟩
  · rw [relatched_params, relatched_eng, outputs, outputs, hpres]
    rfl
  · rw [completion, completion, relatched_params, relatched_eng, hpres, relatched_sampled]

end Sys2Proof.Machine
end

section
/-! Runs of a command's steps over samples that answer its transactions (70_reset_and_hazards.md R189, R197,
R198). -/

namespace Sys2Proof.Machine

/-- Over the samples `l`, from the engine `e` and the target `m`: the transactions `xs` complete without error,
the engine is never in IDLE before the end, and what is left is the engine `e'` and the target `m'`. -/
structure Serves (p : Params) (l : List Inputs) (e : Engine) (m : Memory) (xs : List Txn) (e' : Engine)
    (m' : Memory) : Prop where
  ends : ∀ rest k, run l.length ⟨p, e, m, l ++ rest, k⟩ = .next ⟨p, e', m', rest, k + l.length⟩
  completes : ∀ rest k, trace l.length ⟨p, e, m, l ++ rest, k⟩ = allAcked xs
  busy : ∀ rest k j, j < l.length →
    ∃ u, run j ⟨p, e, m, l ++ rest, k⟩ = .next u ∧ u.eng.state ≠ .idle

theorem allAcked_append (xs ys : List Txn) : allAcked (xs ++ ys) = allAcked xs ++ allAcked ys :=
  List.map_append

/-- One step of a command after another. -/
theorem Serves.append {p : Params} {l₁ l₂ : List Inputs} {e₁ e₂ e₃ : Engine} {m₁ m₂ m₃ : Memory}
    {xs₁ xs₂ : List Txn} (h₁ : Serves p l₁ e₁ m₁ xs₁ e₂ m₂) (h₂ : Serves p l₂ e₂ m₂ xs₂ e₃ m₃) :
    Serves p (l₁ ++ l₂) e₁ m₁ (xs₁ ++ xs₂) e₃ m₃ where
  ends rest k := by
    rw [List.length_append, List.append_assoc, run_add _ _ _ _ (h₁.ends _ k), h₂.ends, Nat.add_assoc]
  completes rest k := by
    rw [List.length_append, List.append_assoc, trace_add _ _ _ _ (h₁.ends _ k), h₁.completes,
      h₂.completes, allAcked_append]
  busy rest k j hj := by
    rw [List.append_assoc]
    obtain hlt | hge := Nat.lt_or_ge j l₁.length
    · exact h₁.busy _ k j hlt
    · obtain ⟨i, rfl⟩ := Nat.exists_eq_add_of_le hge
      rw [List.length_append] at hj
      rw [run_add _ _ _ _ (h₁.ends _ k)]
      exact h₂.busy _ _ i (by omega)

/-- One edge outside IDLE. -/
theorem serves_edge {p : Params} {i : Inputs} {e e' : Engine} {m m' : Memory} {xs : List Txn}
    (hbusy : e.state ≠ .idle)
    (hstep : ∀ rest k, step ⟨p, e, m, i :: rest, k⟩ = .next ⟨p, e', m', rest, k + 1⟩)
    (hcompletion : ∀ rest k, (completion ⟨p, e, m, i :: rest, k⟩).toList = allAcked xs) :
    Serves p [i] e m xs e' m' where
  ends rest k := run_succ 0 _ _ (hstep rest k)
  completes rest k := by
    refine (trace_succ 0 _ _ (hstep rest k)).trans ?_
    rw [hcompletion]
    exact List.append_nil _
  busy rest k j hj := by
    obtain rfl : j = 0 := Nat.lt_one_iff.1 hj
    exact ⟨_, rfl, hbusy⟩

/-! ## A bus step -/

/-- The engine after the presented transaction is acknowledged with the byte `b` read
(40_register_driver.md R94). -/
def acknowledged (p : Params) (b : Byte) (e : Engine) : Engine :=
  if e.state = .fRd then { e with oldmode := b, state := .fSleep } else nextStep p e

theorem acknowledged_fRd (p : Params) (b : Byte) (e : Engine) (h : e.state = .fRd) :
    acknowledged p b e = { e with oldmode := b, state := .fSleep } := if_pos h

theorem acknowledged_of_ne_fRd (p : Params) (b : Byte) (e : Engine) (h : e.state ≠ .fRd) :
    acknowledged p b e = nextStep p e := if_neg h

theorem completeEng_eq_acknowledged (p : Params) (inp : Inputs) (e : Engine) (h : inp.busErr = false) :
    completeEng p inp e = acknowledged p inp.busRdata e := by
  by_cases hs : e.state = .fRd
  · rw [completeEng_fRd p inp e h hs, acknowledged_fRd _ _ _ hs]
  · rw [completeEng_ok p inp e h hs, acknowledged_of_ne_fRd _ _ _ hs]

theorem completion_of_done (s : State) (x : Txn) (hx : presented s.params s.eng = some x)
    (hrst : s.sampled.rst = false) (hdone : s.sampled.busDone = true) :
    completion s = some (x, s.sampled.busErr) := by
  simp [completion, hx, hrst, hdone]

/-- The acknowledging edge of a bus step. -/
theorem serves_done (p : Params) (hwf : p.wf) (e : Engine) (m : Memory) (x : Txn) (i : Inputs)
    (hx : presented p e = some x) (hrst : i.rst = false) (hdone : i.busDone = true)
    (herr : i.busErr = false) :
    Serves p [i] e m [x] (acknowledged p i.busRdata e) (landed p m x) := by
  refine serves_edge (ne_idle_of_presented p e (by simp [hx])) (fun rest k => ?_) fun rest k => ?_
  · rw [step_of_done ⟨p, e, m, i :: rest, k⟩ x hx hrst hdone, ← completeEng_eq_acknowledged p i e herr,
      ← completeTarget_ok p hwf i herr e x m]
    rfl
  · rw [completion_of_done ⟨p, e, m, i :: rest, k⟩ x hx hrst hdone]
    exact congrArg (fun b => [(x, b)]) herr

/-- An edge at which the presented request is not answered. -/
theorem serves_unanswered (p : Params) (e : Engine) (m : Memory) (i : Inputs)
    (hpres : presented p e ≠ none) (hrst : i.rst = false) (hdone : i.busDone = false) :
    Serves p [i] e m [] e m := by
  refine serves_edge (ne_idle_of_presented p e hpres) (fun rest k => ?_) fun rest k => ?_
  · exact step_of_hold ⟨p, e, m, i :: rest, k⟩ hrst (.inr (.inl ⟨hpres, hdone⟩))
  · rw [completion_of_not_done ⟨p, e, m, i :: rest, k⟩ hdone]
    rfl

theorem acked_singleton (i : Inputs) :
    acked [i] = true ↔ i.rst = false ∧ i.busDone = true ∧ i.busErr = false := by
  simp [acked, and_assoc]

theorem acked_cons_cons (i j : Inputs) (l : List Inputs) :
    acked (i :: j :: l) = true ↔ i.rst = false ∧ i.busDone = false ∧ acked (j :: l) = true := by
  simp [acked, and_assoc]

/-- A bus step over samples that answer it: it holds until the last of them, which completes it. -/
theorem serves_acked (p : Params) (hwf : p.wf) (l : List Inputs) (e : Engine) (m : Memory) (x : Txn)
    (hx : presented p e = some x) (hl : acked l = true) :
    Serves p l e m [x] (acknowledged p (lastByte l) e) (landed p m x) := by
  induction l with
  | nil => cases hl
  | cons i l ih =>
    cases l with
    | nil =>
      obtain ⟨hrst, hdone, herr⟩ := (acked_singleton i).1 hl
      exact serves_done p hwf e m x i hx hrst hdone herr
    | cons j l =>
      obtain ⟨hrst, hdone, hrest⟩ := (acked_cons_cons i j l).1 hl
      exact (serves_unanswered p e m i (by simp [hx]) hrst hdone).append (ih hrest)

/-- A bus step other than F_RD goes to its successor. -/
theorem serves_acked_nextStep (p : Params) (hwf : p.wf) (l : List Inputs) (e : Engine) (m : Memory)
    (x : Txn) (hx : presented p e = some x) (hl : acked l = true) (hs : e.state ≠ .fRd) :
    Serves p l e m [x] (nextStep p e) (landed p m x) := by
  rw [← acknowledged_of_ne_fRd p (lastByte l) e hs]
  exact serves_acked p hwf l e m x hx hl

/-! ## The settling wait -/

/-- An edge of the wait. -/
theorem serves_waitEdge (p : Params) (e : Engine) (m : Memory) (i : Inputs) (hs : e.state = .fWait)
    (hrst : i.rst = false) : Serves p [i] e m [] (waitEdge e) m := by
  refine serves_edge (by simp [hs]) (fun rest k => ?_) fun rest k => ?_
  · exact step_fWait ⟨p, e, m, i :: rest, k⟩ hs hrst
  · rw [completion_of_not_presented ⟨p, e, m, i :: rest, k⟩ (presented_fWait p e hs)]
    rfl

/-- The whole wait: one edge more than the counter (40_register_driver.md R96). -/
theorem serves_wait (p : Params) (l : List Inputs) (e : Engine) (m : Memory) (hs : e.state = .fWait)
    (hquiet : quiet l = true) (hlen : l.length = e.wcnt + 1) :
    Serves p l e m [] { e with state := .fRestart, wcnt := 0 } m := by
  induction l generalizing e with
  | nil => cases hlen
  | cons i l ih =>
    obtain ⟨hrst, hquiet⟩ := (quiet_cons i l).1 hquiet
    have hedge := serves_waitEdge p e m i hs hrst
    rw [List.length_cons] at hlen
    by_cases h0 : e.wcnt = 0
    · obtain rfl : l = [] := List.eq_nil_of_length_eq_zero (by omega)
      rwa [waitEdge_zero e h0, h0] at hedge
    · rw [waitEdge_pos e h0] at hedge
      exact hedge.append (ih { e with wcnt := e.wcnt - 1 } hs hquiet (by dsimp only; omega))

/-! ## The frequency sequence -/

/-- The target after a completed frequency sequence (40_register_driver.md R100). -/
def sequenced (p : Params) (mode b : Byte) (m : Memory) : Memory :=
  landed p (landed p (landed p (landed p m (.wrReg p.regMode (sleepVal p mode))) (.wrReg p.regPrescale b))
    (.wrReg p.regMode mode)) (.wrReg p.regMode (restartVal p mode))

/-- The sequence leaves the restart byte and, since the target is asleep when it is written, the prescale
byte. -/
theorem read_sequenced (p : Params) (hwf : p.wf) (mode b : Byte) (m : Memory) (a : Nat) :
    Memory.read (sequenced p mode b m) a = (seqCell p mode b a).or (Memory.read m a) := by
  have hsleep : modeHas p (landed p m (.wrReg p.regMode (sleepVal p mode))) p.bitSleep = true :=
    modeHas_sleepVal p _ mode ((read_landed_mode p hwf _ _ _).trans (if_pos rfl))
  simp only [sequenced, read_landed_mode p hwf, read_landed_prescale p _ _ _ hsleep, seqCell]
  split_ifs <;> rfl

/-- The mode register after a sequence has restart and auto-increment set. -/
theorem modeHas_sequenced (p : Params) (hwf : p.wf) (mode b : Byte) (m : Memory) :
    modeHas p (sequenced p mode b m) p.bitAi = true := by
  have hread : Memory.read (sequenced p mode b m) p.regMode.toNat = some (restartVal p mode) := by
    rw [read_sequenced p hwf, seqCell, if_pos rfl]
    rfl
  obtain ⟨hai, -⟩ := modeHas_restartVal p _ mode hread
  exact hai

/-- The six steps of the sequence, one after the other. -/
theorem serves_sequence (p : Params) (hwf : p.wf) (q : SeqSchedule) (hq : q.ok p) (e : Engine)
    (m : Memory) (b : Byte) (hs : e.state = .fRd) (hb : prescaleByte (seqHz e) = b) :
    Serves p q.flat e m (seqTxns p (lastByte q.rd) b)
      (nextStep p { e with state := .fRestart, oldmode := lastByte q.rd, wcnt := 0 })
      (sequenced p (lastByte q.rd) b m) := by
  subst hb
  obtain ⟨hrd, hsleep, hpre, hrestore, hquiet, hlen, hrestart⟩ := hq
  have hpos := wait_pos p hwf
  have read := serves_acked p hwf q.rd e m (.rdReg p.regMode) (by simp only [presented, hs]) hrd
  rw [acknowledged_fRd _ _ _ hs] at read
  have sleep (m : Memory) := serves_acked_nextStep p hwf q.sleep
    { e with oldmode := lastByte q.rd, state := .fSleep } m _ rfl hsleep (by simp)
  have prescale (m : Memory) := serves_acked_nextStep p hwf q.pre
    { e with oldmode := lastByte q.rd, state := .fPre } m _ rfl hpre (by simp)
  have restore (m : Memory) := serves_acked_nextStep p hwf q.restore
    { e with oldmode := lastByte q.rd, state := .fRestore } m _ rfl hrestore (by simp)
  simp only [nextStep_fRestore p hwf { e with oldmode := lastByte q.rd, state := .fRestore } rfl] at restore
  have wait (m : Memory) := serves_wait p q.wait
    { e with oldmode := lastByte q.rd, state := .fWait, wcnt := p.waitCycles - 1 } m rfl hquiet
    (by dsimp only; omega)
  have restart (m : Memory) := serves_acked_nextStep p hwf q.restart
    { e with state := .fRestart, oldmode := lastByte q.rd, wcnt := 0 } m _ rfl hrestart (by simp)
  exact read.append ((sleep _).append ((prescale _).append ((restore _).append ((wait _).append
    (restart _)))))

end Sys2Proof.Machine
end

section
/-! The initialisation's clearing and the channel writes, over samples that answer them
(40_register_driver.md R98, R103). -/

namespace Sys2Proof.Machine

/-! ## The initialisation -/

/-- The target after a completed initialisation (40_register_driver.md R103). -/
def initialised (p : Params) (mode : Byte) (m : Memory) : Memory :=
  sequenced p mode 0x65#8 (landed p m (.wrReg p.regMode 0x00#8))

/-- The cleared mode is overwritten by the sequence. -/
theorem read_initialised (p : Params) (hwf : p.wf) (mode : Byte) (m : Memory) (a : Nat) :
    Memory.read (initialised p mode m) a = (seqCell p mode 0x65#8 a).or (Memory.read m a) := by
  rw [initialised, read_sequenced p hwf, read_landed_mode p hwf, seqCell]
  split_ifs <;> rfl

/-- An initialised target has auto-increment known set. -/
theorem modeHas_initialised (p : Params) (hwf : p.wf) (mode : Byte) (m : Memory) :
    modeHas p (initialised p mode m) p.bitAi = true := modeHas_sequenced p hwf mode _ _

/-- I_CLR and the sequence of 60 Hz, for every command but FREQ. -/
theorem serves_init (p : Params) (hwf : p.wf) (clr : List Inputs) (hclr : acked clr = true)
    (q : SeqSchedule) (hq : q.ok p) (e : Engine) (m : Memory) (hs : e.state = .iClr)
    (hop : e.cOp ≠ opFreq) :
    Serves p (clr ++ q.flat) e m (initTxns p (lastByte q.rd))
      (nextStep p { e with state := .fRestart, oldmode := lastByte q.rd, wcnt := 0 })
      (initialised p (lastByte q.rd) m) := by
  have clear := serves_acked_nextStep p hwf clr e m (.wrReg p.regMode 0x00#8)
    (by simp only [presented, hs]) hclr (by simp [hs])
  have hnext : nextStep p e = { e with state := .fRd } := by simp only [nextStep, hs]
  have hbyte : prescaleByte (seqHz { e with state := .fRd }) = 0x65#8 :=
    (congrArg prescaleByte (seqHz_of_ne_freq { e with state := .fRd } hop)).trans prescaleByte_initHz
  have sequence (m : Memory) := serves_sequence p hwf q hq { e with state := .fRd } m _ rfl hbyte
  rw [hnext] at clear
  exact clear.append (sequence _)

/-- The initialisation of a public command goes on to CH_A, with `init_done` set (41_lazy_init.md R122). -/
theorem serves_lazyInit (p : Params) (hwf : p.wf) (clr : List Inputs) (hclr : acked clr = true)
    (q : SeqSchedule) (hq : q.ok p) (e : Engine) (m : Memory) (hs : e.state = .iClr)
    (hop : isPublic e.cOp = true) :
    Serves p (clr ++ q.flat) e m (initTxns p (lastByte q.rd))
      { e with state := .chA, oldmode := lastByte q.rd, wcnt := 0, initDone := true }
      (initialised p (lastByte q.rd) m) := by
  have hfreq : e.cOp ≠ opFreq := fun h => by
    rw [h] at hop
    cases hop
  have init := serves_init p hwf clr hclr q hq e m hs hfreq
  rwa [nextStep_fRestart p _ rfl, if_pos ((isPublic_iff _).1 hop)] at init

/-! ## A channel write -/

/-- The target after a channel write, skipped where its channel is out of range. -/
def chanLanded (p : Params) (c : ChanWrite) (m : Memory) : Memory :=
  match chanTxn p (some c) with
  | some x => landed p m x
  | none => m

theorem chanLanded_inrange (p : Params) (c : ChanWrite) (m : Memory) (h : 0 ≤ c.ch ∧ c.ch ≤ 15) :
    chanLanded p c m = landed p m (chWrite p c) := by
  simp only [chanLanded, chanTxn_inrange p c h]

theorem chanLanded_out (p : Params) (c : ChanWrite) (m : Memory) (h : ¬ (0 ≤ c.ch ∧ c.ch ≤ 15)) :
    chanLanded p c m = m := by
  simp only [chanLanded, chanTxn_out p c h]

/-- A channel write leaves the mode register. -/
theorem modeHas_chanLanded (p : Params) (hwf : p.wf) (c : ChanWrite) (m : Memory) (bit : Byte) :
    modeHas p (chanLanded p c m) bit = modeHas p m bit := by
  by_cases hc : 0 ≤ c.ch ∧ c.ch ≤ 15
  · rw [chanLanded_inrange p c m hc]
    exact modeHas_congr p _ _ bit (read_landed_frame p m _ _ (regMode_not_mem_touched_chWrite p hwf c hc))
  · rw [chanLanded_out p c m hc]

/-- A written channel's four registers, with auto-increment known set. -/
theorem read_chanLanded (p : Params) (hwf : p.wf) (c : ChanWrite) (m : Memory)
    (hai : modeHas p m p.bitAi = true) (a : Nat) : Memory.read (chanLanded p c m) a
      = (chanCell p c.ch (low16 c.on) (low16 c.off) a).or (Memory.read m a) := by
  by_cases hc : 0 ≤ c.ch ∧ c.ch ≤ 15
  · have hptr := toNat_chWrite_ptr p hwf c.ch hc
    have hblock := chBlock_le_of_wf p hwf
    rw [chanLanded_inrange p c m hc, chWrite, read_landed_wrBuf p m _ _ _ _ _ (by omega) hai, hptr,
      chanCell, if_pos hc]
    split_ifs <;> rfl
  · rw [chanLanded_out p c m hc, chanCell, if_neg hc, Option.none_or]

/-- A written channel's four registers, with auto-increment not known set. -/
theorem read_chanLanded_unknown (p : Params) (hwf : p.wf) (c : ChanWrite) (m : Memory)
    (hai : modeHas p m p.bitAi = false) (a : Nat) : Memory.read (chanLanded p c m) a
      = if (chanCell p c.ch (low16 c.on) (low16 c.off) a).isSome then none else Memory.read m a := by
  by_cases hc : 0 ≤ c.ch ∧ c.ch ≤ 15
  · have hptr := toNat_chWrite_ptr p hwf c.ch hc
    have hblock := chBlock_le_of_wf p hwf
    rw [chanLanded_inrange p c m hc, chWrite, read_landed_wrBuf_unknown p m _ _ _ _ _ hai,
      touched_wrBuf_of_le _ _ _ _ _ (by omega), hptr, chanCell, if_pos hc]
    simp only [List.mem_cons, List.not_mem_nil, or_false]
    grind
  · rw [chanLanded_out p c m hc, chanCell, if_neg hc, Option.isSome_none, if_neg Bool.false_ne_true]

/-- An in-range channel's burst, its pointer computed in bytes. -/
theorem chanTxns_inrange (p : Params) (c : ChanWrite) (h : 0 ≤ c.ch ∧ c.ch ≤ 15) :
    chanTxns p c.ch (low16 c.on) (low16 c.off) = [chWrite p c] := by
  have hptr : p.regChBase + BitVec.ofNat 8 (4 * c.ch.toNat) = lowbyte (p.regChBase.toNat + 4 * c.ch) := by
    apply BitVec.eq_of_toNat_eq
    rw [toNat_lowbyte, BitVec.toNat_add, BitVec.toNat_ofNat]
    omega
  rw [chanTxns, if_pos h, hptr]
  rfl

/-- A skipped channel write takes one edge. -/
theorem serves_skip (p : Params) (i : Inputs) (e : Engine) (m : Memory)
    (hs : e.state = .chA ∨ e.state = .chB) (hnone : presented p e = none) (hrst : i.rst = false) :
    Serves p [i] e m [] (nextStep p e) m := by
  refine serves_edge (by obtain h | h := hs <;> simp [h]) (fun rest k => ?_) fun rest k => ?_
  · exact step_of_skip ⟨p, e, m, i :: rest, k⟩ hrst hs hnone
  · rw [completion_of_not_presented ⟨p, e, m, i :: rest, k⟩ hnone]
    rfl

/-- A channel step: an answered burst where the channel is in range, one edge where it is not. -/
theorem serves_chan (p : Params) (hwf : p.wf) (l : List Inputs) (e : Engine) (m : Memory) (c : ChanWrite)
    (hs : e.state = .chA ∨ e.state = .chB) (hx : presented p e = chanTxn p (some c))
    (hl : chanServed c.ch l = true) :
    Serves p l e m (chanTxns p c.ch (low16 c.on) (low16 c.off)) (nextStep p e) (chanLanded p c m) := by
  by_cases hc : 0 ≤ c.ch ∧ c.ch ≤ 15
  · rw [chanServed, if_pos hc] at hl
    rw [chanTxn_inrange p c hc] at hx
    rw [chanTxns_inrange p c hc, chanLanded_inrange p c m hc]
    exact serves_acked_nextStep p hwf l e m _ hx hl (by obtain h | h := hs <;> simp [h])
  · rw [chanServed, if_neg hc, Bool.and_eq_true, decide_eq_true_iff] at hl
    obtain ⟨hlen, hquiet⟩ := hl
    obtain ⟨i, rfl⟩ := List.length_eq_one_iff.1 hlen
    rw [chanTxn_out p c hc] at hx
    rw [chanTxns, if_neg hc, chanLanded_out p c m hc]
    exact serves_skip p i e m hs hx ((quiet_cons i []).1 hquiet).1

/-! ## The channel writes of each command -/

/-- CHPWM's operands (40_register_driver.md R102). -/
theorem chanA_chpwm (e : Engine) (h : e.cOp = opChpwm) :
    chanA e = some ⟨rawCh e.cId, (e.cX.toNat : Int), (e.cY.toNat : Int)⟩ := by
  have hservo : e.cOp ≠ opServo := by
    rw [h]
    decide
  have hmotor : e.cOp ≠ opMotor := by
    rw [h]
    decide
  exact (if_neg hservo).trans ((if_neg hmotor).trans (if_pos h))

/-- A number below 65536 is sent as it is. -/
theorem low16_natCast (n : Nat) : low16 (n : Int) = BitVec.ofNat 16 n := BitVec.ofInt_natCast _ _

theorem low16_toNat (v : Half) : low16 (v.toNat : Int) = v := by
  rw [low16_natCast, BitVec.ofNat_toNat, BitVec.setWidth_eq]

/-- CH_A of a command with one channel write ends the command. -/
theorem serves_chA_to_end (p : Params) (hwf : p.wf) (l : List Inputs) (e : Engine) (m : Memory)
    (c : ChanWrite) (hs : e.state = .chA) (hop : e.cOp ≠ opMotor) (hc : chanA e = some c)
    (hl : chanServed c.ch l = true) :
    Serves p l e m (chanTxns p c.ch (low16 c.on) (low16 c.off)) { e with state := .idle }
      (chanLanded p c m) := by
  have hnext : nextStep p e = { e with state := .idle } := by
    simp only [nextStep, hs, if_neg hop]
  rw [← hnext]
  exact serves_chan p hwf l e m c (.inl hs) (by simp only [presented, hs, hc]) hl

/-- The channel write of a SERVO (42_servo.md R132). -/
def servoWrite (sid : Byte) (deg : Half) : ChanWrite := ⟨servoCh sid, 0, pulse deg.toInt⟩

/-- CH_A of a SERVO. -/
theorem serves_servo (p : Params) (hwf : p.wf) (l : List Inputs) (e : Engine) (m : Memory)
    (hs : e.state = .chA) (hop : e.cOp = opServo) (hl : chanServed (servoCh e.cId) l = true) :
    Serves p l e m (chanTxns p (servoCh e.cId) 0#16 (low16 (pulse e.cX.toInt))) { e with state := .idle }
      (chanLanded p (servoWrite e.cId e.cX) m) := by
  have hmotor : e.cOp ≠ opMotor := by
    rw [hop]
    decide
  exact serves_chA_to_end p hwf l e m (servoWrite e.cId e.cX) hs hmotor (chanA_servo e hop) hl

/-- The plus and the minus channel's writes of a MOTOR (43_motor.md R144). -/
def plusWrite (mid : Byte) (v : Int) : ChanWrite := ⟨plusCh mid, 0, plusOff v⟩
def minusWrite (mid : Byte) (v : Int) : ChanWrite := ⟨minusCh mid, 0, minusOff v⟩

/-- The target after both. -/
def motorLanded (p : Params) (mid : Byte) (v : Int) (m : Memory) : Memory :=
  chanLanded p (minusWrite mid v) (chanLanded p (plusWrite mid v) m)

/-- CH_A and CH_B of a MOTOR. -/
theorem serves_motor (p : Params) (hwf : p.wf) (la lb : List Inputs) (e : Engine) (m : Memory)
    (hs : e.state = .chA) (hop : e.cOp = opMotor) (hla : chanServed (plusCh e.cId) la = true)
    (hlb : chanServed (minusCh e.cId) lb = true) :
    Serves p (la ++ lb) e m
      (chanTxns p (plusCh e.cId) 0#16 (low16 (plusOff (signedV e.cX e.cDir)))
        ++ chanTxns p (minusCh e.cId) 0#16 (low16 (minusOff (signedV e.cX e.cDir))))
      { e with state := .idle } (motorLanded p e.cId (signedV e.cX e.cDir) m) := by
  have hnext : nextStep p e = { e with state := .chB } := by
    simp only [nextStep, hs, if_pos hop]
  have plus := serves_chan p hwf la e m (plusWrite e.cId (signedV e.cX e.cDir)) (.inl hs)
    (by simp only [presented, hs, chanA_motor e hop, plusWrite]) hla
  rw [hnext] at plus
  have minus (m : Memory) := serves_chan p hwf lb { e with state := .chB } m
    (minusWrite e.cId (signedV e.cX e.cDir)) (.inr rfl)
    (by simp only [presented, chanB_motor { e with state := .chB } hop, minusWrite]) hlb
  exact plus.append (minus _)

/-- A MOTOR's two channels, with auto-increment known set. -/
theorem read_motorLanded (p : Params) (hwf : p.wf) (mid : Byte) (v : Int) (m : Memory)
    (hai : modeHas p m p.bitAi = true) (a : Nat) : Memory.read (motorLanded p mid v m) a
      = ((chanCell p (minusCh mid) 0#16 (low16 (minusOff v)) a).or
          (chanCell p (plusCh mid) 0#16 (low16 (plusOff v)) a)).or (Memory.read m a) := by
  have hai' := (modeHas_chanLanded p hwf (plusWrite mid v) m p.bitAi).trans hai
  rw [motorLanded, read_chanLanded p hwf _ _ hai', read_chanLanded p hwf _ _ hai, Option.or_assoc]
  rfl

/-- The counts of the two sides as they are sent (43_motor.md R143). -/
theorem low16_plusOff (v : Int) :
    low16 (plusOff v) = if v ≤ 0 then BitVec.ofNat 16 (mag v) else 0#16 := by
  unfold plusOff
  split_ifs
  · exact low16_natCast _
  · rfl

theorem low16_minusOff (v : Int) :
    low16 (minusOff v) = if v ≤ 0 then 0#16 else BitVec.ofNat 16 (mag v) := by
  unfold minusOff
  split_ifs
  · rfl
  · exact low16_natCast _

end Sys2Proof.Machine
end

section
/-! Whole commands, from acceptance to their end (40_register_driver.md R100 to R103, 42_servo.md R132,
43_motor.md R144). -/

namespace Sys2Proof.Machine

/-! ## From the acceptance on -/

/-- A command whose steps are served from its accepted engine on, from the accepting edge to its end. -/
theorem run_command (s : State) (o : Inputs) (c : Instr) (l rest : List Inputs) (e₁ e' : Engine)
    (xs : List Txn) (m' : Memory) (hidle : s.eng.state = .idle) (hoffer : offers o c)
    (hin : s.inputs = o :: (l ++ rest)) (hexec : exec c s.consume = .next (s.consume.withEng e₁))
    (hserves : Serves s.params l e₁ s.target xs e' m') (n : Nat) (hn : l.length = n) :
    ∃ t, run (1 + n) s = .next t ∧ t.eng = e' ∧ t.params = s.params ∧ t.inputs = rest
      ∧ t.target = m' ∧ trace (1 + n) s = allAcked xs ∧ BusyFor n s := by
  subst hn
  obtain ⟨hrst, hvalid, hdecode⟩ := hoffer
  obtain rfl := sampled_cons s o (l ++ rest) hin
  have hstep : step s = .next ⟨s.params, e₁, s.target, l ++ rest, s.edge + 1⟩ := by
    rw [step_of_offer s hrst hidle hvalid, hdecode, hexec, State.consume, hin]
    rfl
  have run_from_accept (n : Nat) := Nat.add_comm 1 n ▸ run_succ n s _ hstep
  refine ⟨_, (run_from_accept _).trans (hserves.ends rest (s.edge + 1)), rfl, rfl, rfl, rfl, ?trace, ?busy⟩
  case trace =>
    rw [Nat.add_comm, trace_succ _ _ _ hstep, completion_of_not_presented s (presented_idle _ _ hidle),
      hserves.completes]
    rfl
  case busy =>
    intro j hj0 hj
    obtain ⟨i, rfl⟩ := Nat.exists_eq_add_of_le hj0
    obtain ⟨u, hrun, hu⟩ := hserves.busy rest (s.edge + 1) i (by omega)
    exact ⟨u, (run_from_accept i).trans hrun, (status_bit_busy _).trans ((busy_iff _).2 hu)⟩

/-- In IDLE the wait counter is 0. -/
theorem wcnt_of_idle (s : State) (h : Inv s) (hidle : s.eng.state = .idle) : s.eng.wcnt = 0 := by
  obtain ⟨-, -, -, ⟨-, -, hzero⟩, -⟩ := h
  exact hzero (by simp [hidle])

/-- In IDLE an initialised target has auto-increment known set. -/
theorem modeHas_bitAi_of_idle (s : State) (h : Inv s) (hidle : s.eng.state = .idle)
    (hinit : s.eng.initDone = true) : modeHas s.params s.target s.params.bitAi = true := by
  obtain ⟨-, -, -, -, -, -, -, -, hmode⟩ := h
  obtain ⟨hai, -⟩ := hmode (.inl hidle) hinit
  exact hai

/-- Settles O53: its one step is the channel write of the latched counts. -/
theorem chpwmRunsToItsEnd : Obligations.ChpwmRunsToItsEnd := by
  intro s o ch on off dir l rest hinv hidle hoffer hserved hin
  have ⟨hwf, _⟩ := hinv
  have serves := serves_chA_to_end s.params hwf l (acceptLegal opChpwm ch on off dir .chA s.eng) s.target
    _ rfl (by decide : opChpwm ≠ opMotor) (chanA_chpwm _ rfl) hserved
  obtain ⟨t, hrun, heng, hparams, hinputs, htarget, htrace, hbusy⟩ :=
    run_command s o _ l rest _ _ _ _ hidle hoffer hin rfl serves _ rfl
  simp only [acceptLegal_cX, acceptLegal_cY, low16_toNat] at htrace
  refine ⟨t, hrun, ?_, hparams, hinputs, htrace, hbusy, fun hai a => ?_, fun hai a => ?_⟩
  · rw [heng]
    simp only [acceptLegal, hidle]
    rfl
  · rw [htarget, read_chanLanded _ hwf _ _ hai]
    simp only [acceptLegal_cX, acceptLegal_cY, low16_toNat]
    rfl
  · rw [htarget, read_chanLanded_unknown _ hwf _ _ hai]
    simp only [acceptLegal_cX, acceptLegal_cY, low16_toNat]
    rfl

/-- Settles O54: the sequence of FREQ's own frequency, after which FREQ ends. -/
theorem freqRunsToItsEnd : Obligations.FreqRunsToItsEnd := by
  intro s o id hz y dir q rest hinv hidle hhz hoffer hq hin m b
  have ⟨hwf, _⟩ := hinv
  have serves := serves_sequence s.params hwf q hq (acceptLegal opFreq id hz y dir .fRd s.eng) s.target b
    rfl rfl
  obtain ⟨t, hrun, heng, hparams, hinputs, htarget, htrace, hbusy⟩ :=
    run_command s o _ q.flat rest _ _ _ _ hidle hoffer hin (if_neg hhz) serves _ rfl
  refine ⟨t, hrun, ?_, hparams, hinputs, htrace, hbusy, fun a => ?_⟩
  · rw [heng]
    simp [nextStep, acceptLegal, hidle, wcnt_of_idle s hinv hidle, isPublic, opFreq, opServo, opMotor, m]
  · rw [htarget]
    exact read_sequenced _ hwf _ _ _ a

/-- Settles O55: the initialisation, after which INIT ends. -/
theorem initRunsToItsEnd : Obligations.InitRunsToItsEnd := by
  intro s o id x y dir clr q rest hinv hidle hoffer hclr hq hin m n
  have ⟨hwf, _⟩ := hinv
  have serves := serves_init s.params hwf clr hclr q hq (acceptLegal opInit id x y dir .iClr s.eng) s.target
    rfl (by decide : opInit ≠ opFreq)
  obtain ⟨t, hrun, heng, hparams, hinputs, htarget, htrace, hbusy⟩ :=
    run_command s o _ (clr ++ q.flat) rest _ _ _ _ hidle hoffer (by rw [hin, List.append_assoc]) rfl serves
      n List.length_append
  refine ⟨t, hrun, ?_, hparams, hinputs, htrace, hbusy, fun a => ?_⟩
  · rw [heng]
    simp [nextStep, acceptLegal, hidle, wcnt_of_idle s hinv hidle, isPublic, opInit, opServo, opMotor, m]
  · rw [htarget]
    exact read_initialised _ hwf _ _ a

/-- The acceptance of a SERVO or MOTOR starts at CH_A once initialised, and at I_CLR before
(41_lazy_init.md R121). -/
theorem lazyFirst_of_initDone (e : Engine) (h : e.initDone = true) : lazyFirst e = .chA := if_pos h

theorem lazyFirst_of_not_initDone (e : Engine) (h : e.initDone = false) : lazyFirst e = .iClr := by
  rw [lazyFirst, h, if_neg Bool.false_ne_true]

/-- Settles O56: its one step is the channel write of the pulse. -/
theorem servoRunsToItsEnd : Obligations.ServoRunsToItsEnd := by
  intro s o sid deg y dir l rest hinv hidle hinit hoffer hserved hin off
  have ⟨hwf, _⟩ := hinv
  have hexec : exec (.servo sid deg y dir) s.consume
      = .next (s.consume.withEng (acceptLegal opServo sid deg y dir .chA s.eng)) := by
    rw [exec, execServo, consume_eng, lazyFirst_of_initDone s.eng hinit]
  have servo := serves_servo s.params hwf l (acceptLegal opServo sid deg y dir .chA s.eng) s.target
    rfl rfl hserved
  obtain ⟨t, hrun, heng, hparams, hinputs, htarget, htrace, hbusy⟩ :=
    run_command s o _ l rest _ _ _ _ hidle hoffer hin hexec servo _ rfl
  refine ⟨t, hrun, ?_, hparams, hinputs, htrace, hbusy, fun a => ?_⟩
  · rw [heng]
    simp [acceptLegal, hidle, opServo]
  · rw [htarget]
    exact read_chanLanded _ hwf _ _ (modeHas_bitAi_of_idle s hinv hidle hinit) a

/-- Settles O57: the initialisation, then the channel write of the pulse in the target it leaves. -/
theorem firstServoInitialisesAndRuns : Obligations.FirstServoInitialisesAndRuns := by
  intro s o sid deg y dir clr q l rest hinv hidle hinit hoffer hclr hq hserved hin m off n
  have ⟨hwf, _⟩ := hinv
  have hexec : exec (.servo sid deg y dir) s.consume
      = .next (s.consume.withEng (acceptLegal opServo sid deg y dir .iClr s.eng)) := by
    rw [exec, execServo, consume_eng, lazyFirst_of_not_initDone s.eng hinit]
  have init := serves_lazyInit s.params hwf clr hclr q hq
    (acceptLegal opServo sid deg y dir .iClr s.eng) s.target rfl rfl
  have servo := serves_servo s.params hwf l
    { acceptLegal opServo sid deg y dir .chA s.eng with oldmode := m, wcnt := 0, initDone := true }
    (initialised s.params m s.target) rfl rfl hserved
  obtain ⟨t, hrun, heng, hparams, hinputs, htarget, htrace, hbusy⟩ :=
    run_command s o _ ((clr ++ q.flat) ++ l) rest _ _ _ _ hidle hoffer
      (by simp only [hin, List.append_assoc]) hexec (init.append servo) n
      (by simp only [List.length_append, n])
  refine ⟨t, hrun, ?_, hparams, hinputs, htrace, hbusy, fun a => ?_⟩
  · rw [heng]
    simp [acceptLegal, hidle, wcnt_of_idle s hinv hidle, opServo, m]
  · rw [htarget, read_chanLanded _ hwf _ _ (modeHas_initialised _ hwf _ _), read_initialised _ hwf,
      Option.or_assoc]
    rfl

/-- DIR = 1 negates the speed (43_motor.md R141). -/
theorem signedV_eq_mul (spd : Half) (dir : BitVec 1) :
    spd.toInt * (if dir = 1#1 then -1 else 1) = signedV spd dir := by
  obtain rfl | rfl : dir = 0#1 ∨ dir = 1#1 := by
    revert dir
    decide
  · rfl
  · rfl

/-- Settles O58: its two steps are the channel writes of the two sides. -/
theorem motorRunsToItsEnd : Obligations.MotorRunsToItsEnd := by
  intro s o mid spd y dir la lb rest hinv hidle hinit hoffer hla hlb hin
  rw [signedV_eq_mul]
  intro v g a b n
  have ⟨hwf, _⟩ := hinv
  have hexec : exec (.motor mid spd y dir) s.consume
      = .next (s.consume.withEng (acceptLegal opMotor mid spd y dir .chA s.eng)) := by
    rw [exec, execMotor, consume_eng, lazyFirst_of_initDone s.eng hinit]
  have motor := serves_motor s.params hwf la lb (acceptLegal opMotor mid spd y dir .chA s.eng) s.target
    rfl rfl hla hlb
  obtain ⟨t, hrun, heng, hparams, hinputs, htarget, htrace, hbusy⟩ :=
    run_command s o _ (la ++ lb) rest _ _ _ _ hidle hoffer (by simp only [hin, List.append_assoc]) hexec
      motor n List.length_append
  have hplus : low16 (plusOff (signedV spd dir)) = a := low16_plusOff _
  have hminus : low16 (minusOff (signedV spd dir)) = b := low16_minusOff _
  simp only [acceptLegal_cId, acceptLegal_cX, acceptLegal_cDir, hplus, hminus] at htrace htarget
  refine ⟨t, hrun, ?_, hparams, hinputs, htrace, hbusy, fun k => ?_⟩
  · rw [heng]
    simp [acceptLegal, hidle, opMotor]
  · rw [htarget, read_motorLanded _ hwf _ _ _ (modeHas_bitAi_of_idle s hinv hidle hinit), hplus, hminus]
    rfl

/-- Settles O59: the initialisation, then the channel writes of the two sides in the target it leaves. -/
theorem firstMotorInitialisesAndRuns : Obligations.FirstMotorInitialisesAndRuns := by
  intro s o mid spd y dir clr q la lb rest hinv hidle hinit hoffer hclr hq hla hlb hin m
  rw [signedV_eq_mul]
  intro v g a b n
  have ⟨hwf, _⟩ := hinv
  have hexec : exec (.motor mid spd y dir) s.consume
      = .next (s.consume.withEng (acceptLegal opMotor mid spd y dir .iClr s.eng)) := by
    rw [exec, execMotor, consume_eng, lazyFirst_of_not_initDone s.eng hinit]
  have init := serves_lazyInit s.params hwf clr hclr q hq
    (acceptLegal opMotor mid spd y dir .iClr s.eng) s.target rfl rfl
  have motor := serves_motor s.params hwf la lb
    { acceptLegal opMotor mid spd y dir .chA s.eng with oldmode := m, wcnt := 0, initDone := true }
    (initialised s.params m s.target) rfl rfl hla hlb
  obtain ⟨t, hrun, heng, hparams, hinputs, htarget, htrace, hbusy⟩ :=
    run_command s o _ ((clr ++ q.flat) ++ (la ++ lb)) rest _ _ _ _ hidle hoffer
      (by simp only [hin, List.append_assoc]) hexec (init.append motor) n
      (by simp only [List.length_append, n, Nat.add_assoc])
  have hplus : low16 (plusOff (signedV spd dir)) = a := low16_plusOff _
  have hminus : low16 (minusOff (signedV spd dir)) = b := low16_minusOff _
  simp only [acceptLegal_cId, acceptLegal_cX, acceptLegal_cDir, hplus, hminus] at htrace htarget
  refine ⟨t, hrun, ?_, hparams, hinputs, htrace, hbusy, fun k => ?_⟩
  · rw [heng]
    simp [acceptLegal, hidle, wcnt_of_idle s hinv hidle, opMotor, m]
  · rw [htarget, read_motorLanded _ hwf _ _ _ (modeHas_initialised _ hwf _ _), read_initialised _ hwf,
      hplus, hminus]
    exact Option.or_assoc.symm

end Sys2Proof.Machine
end

section
/-! Once only, and before any output (41_lazy_init.md R121, R124): what is outstanding of the one initialisation,
edge by edge. -/

namespace Sys2Proof.Machine

/-- A machine that meets the invariant, has met no bus error, and runs no command but SERVO and MOTOR. -/
structure OnlyPublic (s : State) : Prop where
  inv : Inv s
  noFault : s.eng.state ≠ .fault
  cOpPublic : s.eng.state ≠ .idle → isPublic s.eng.cOp = true

/-- A sample without reset and bus error that offers SERVO and MOTOR words alone. -/
abbrev offersPublic (i : Inputs) : Prop :=
  i.rst = false ∧ (i.busDone = true → i.busErr = false)
    ∧ (i.cmdValid = true → i.cmdData.extractLsb' 44 4 = 1#4 ∨ i.cmdData.extractLsb' 44 4 = 2#4)

/-- A command in progress is no FREQ, and sets `init_done` as its step says. -/
theorem OnlyPublic.running {s : State} (hs : OnlyPublic s) (hidle : s.eng.state ≠ .idle) :
    s.eng.cOp ≠ opFreq ∧ s.eng.initDone = !isInitStep s.eng.state := by
  have hpub := hs.cOpPublic hidle
  have ⟨_, _, hflags, _, _⟩ := hs.inv
  obtain ⟨-, -, -, -, -, -, hinit⟩ := (flagsAgree_running_iff s.eng hidle hs.noFault).1 hflags
  refine ⟨fun hop => ?_, hinit hpub⟩
  rw [hop] at hpub
  cases hpub

/-- An offered word is a SERVO or a MOTOR, both legal (30_encoding.md R74). -/
theorem legal_of_offersPublic (i : Inputs) (h : offersPublic i) (hvalid : i.cmdValid = true) :
    (decode i.cmdData).legal = true := by
  obtain ⟨-, -, hop⟩ := h
  refine (decode_legal_iff _).2 (.inl ?_)
  obtain hop | hop := hop hvalid <;> simp [fieldOp, hop]

theorem fault_iff_of_inv (s : State) (h : Inv s) : s.eng.fault = true ↔ s.eng.state = .fault := by
  obtain ⟨-, -, ⟨-, -, -, -, hfault, -⟩, -⟩ := h
  exact hfault

/-- Such samples keep the machine to SERVO and MOTOR, without bus error. -/
theorem onlyPublic_step (s t : State) (hs : OnlyPublic s) (hoffer : offersPublic s.sampled)
    (hstep : step s = .next t) : OnlyPublic t := by
  have hinv := everyEdgeKeepsInvariant s t hs.inv hstep
  obtain ⟨hrst, hnoerr, hop⟩ := hoffer
  obtain ⟨-, -, -, -, hfault, -⟩ := registersHaveOnlyTheirWriters s t hrst hstep
  have hkept : t.eng.fault = s.eng.fault :=
    (hfault fun ⟨_, hdone, herr⟩ => by simp [hnoerr hdone] at herr).1
  have hnofault : t.eng.state ≠ .fault := by
    rw [Ne, ← fault_iff_of_inv t hinv, hkept, fault_iff_of_inv s hs.inv]
    exact hs.noFault
  refine ⟨hinv, hnofault, fun hrun => ?_⟩
  cases edge_of_step s t hstep with
  | reset h => simp [hrst] at h
  | accept _ _ hvalid => exact (isPublic_iff _).2 (hop hvalid)
  | reject _ hidle => exact absurd hidle hrun
  | hold => exact hs.cOpPublic hrun
  | fail => exact absurd rfl hnofault
  | done x _ hx _ herr =>
    dsimp only
    rw [completeEng_frame _ _ _ herr]
    exact hs.cOpPublic (ne_idle_of_presented s.params s.eng (by simp [hx]))
  | skip _ hchan =>
    rw [withEng_eng, nextStep_frame]
    exact hs.cOpPublic (by obtain h | h := hchan <;> simp [h])
  | wait _ hwait =>
    rw [withEng_eng, waitEdge_frame]
    exact hs.cOpPublic (by simp [hwait])

/-! ## What is outstanding -/

/-- What the initialisation that reads the mode `mode` has still to complete, by the step it has reached. -/
def outstanding (p : Params) (mode : Byte) (e : Engine) : List Txn :=
  match e.state with
  | .idle => if e.initDone then [] else initTxns p mode
  | .iClr => initTxns p mode
  | .fRd => seqTxns p mode 0x65#8
  | .fSleep => (seqTxns p mode 0x65#8).drop 1
  | .fPre => (seqTxns p mode 0x65#8).drop 2
  | .fRestore => (seqTxns p mode 0x65#8).drop 3
  | .fWait => (seqTxns p mode 0x65#8).drop 4
  | .fRestart => (seqTxns p mode 0x65#8).drop 4
  | .chA => []
  | .chB => []
  | .fault => []

/-- From F_SLEEP to F_RESTART the mode that the initialisation has read is in `oldmode`. -/
abbrev readsMode (mode : Byte) (e : Engine) : Prop :=
  e.state ∈ [.fSleep, .fPre, .fRestore, .fWait, .fRestart] → mode = e.oldmode

/-- What one edge does to what is outstanding: nothing completes and it stays, its first transaction completes,
or it is over and a burst completes. -/
def Progress (p : Params) (mode : Byte) (e e' : Engine) : Option (Txn × Bool) → Prop
  | none => outstanding p mode e' = outstanding p mode e
  | some c => (c.2 = false ∧ outstanding p mode e = c.1 :: outstanding p mode e')
      ∨ (isAckedBurst c = true ∧ outstanding p mode e = [] ∧ outstanding p mode e' = [])

theorem outstanding_chan (p : Params) (mode : Byte) (e : Engine) (h : e.state = .chA ∨ e.state = .chB) :
    outstanding p mode e = [] := by
  obtain h | h := h <;> simp only [outstanding, h]

/-- After a channel step an initialised engine has nothing outstanding. -/
theorem outstanding_nextStep_chan (p : Params) (mode : Byte) (e : Engine)
    (h : e.state = .chA ∨ e.state = .chB) (hinit : e.initDone = true) :
    outstanding p mode (nextStep p e) = [] := by
  obtain h | h := h
  · rw [nextStep_chA p e h]
    by_cases hop : e.cOp = 2#4 <;> simp [outstanding, hop, hinit]
  · rw [nextStep_chB p e h]
    simp [outstanding, hinit]

/-- Before the mode is read it is free, from then on it is in `oldmode` until the sequence ends: so the mode of the
machine after an edge gives one for the machine before it. -/
def Advances (p : Params) (e e' : Engine) (c : Option (Txn × Bool)) : Prop :=
  ∀ mode, readsMode mode e' → ∃ mode', readsMode mode' e
    ∧ outstanding p mode' e' = outstanding p mode e' ∧ Progress p mode' e e' c

/-- A completed bus step of SERVO or MOTOR. -/
theorem advances_done (s : State) (hs : OnlyPublic s) (x : Txn) (hx : presented s.params s.eng = some x)
    (inp : Inputs) (herr : inp.busErr = false) :
    Advances s.params s.eng (completeEng s.params inp s.eng) (some (x, false)) := by
  have hidle := ne_idle_of_presented s.params s.eng (by simp [hx])
  obtain ⟨hfreq, hinit⟩ := hs.running hidle
  have hpub := hs.cOpPublic hidle
  have hbyte : prescaleByte (seqHz s.eng) = 0x65#8 := by
    rw [seqHz_of_ne_freq _ hfreq, prescaleByte_initHz]
  intro mode hmode
  cases hst : s.eng.state
  case idle | fWait | fault => simp [presented, hst] at hx
  case fRd =>
    obtain rfl : .rdReg s.params.regMode = x := by simpa [presented, hst] using hx
    rw [completeEng_fRd _ _ _ herr hst]
    exact ⟨mode, by simp [hst], rfl, .inl ⟨rfl, by simp [outstanding, hst, seqTxns]⟩⟩
  case chA | chB =>
    have hchan : s.eng.state = .chA ∨ s.eng.state = .chB := by simp [hst]
    obtain ⟨c, -, rfl⟩ := chWrite_of_presented_chan _ _ x hchan hx
    rw [completeEng_ok _ _ _ herr (by simp [hst])]
    exact ⟨mode, by simp [hst], rfl, .inr ⟨rfl, outstanding_chan _ _ _ hchan,
      outstanding_nextStep_chan _ _ _ hchan (by rw [hinit, hst]; rfl)⟩⟩
  case iClr =>
    obtain rfl : .wrReg s.params.regMode 0x00#8 = x := by simpa [presented, hst] using hx
    rw [completeEng_ok _ _ _ herr (by simp [hst])]
    exact ⟨mode, by simp [hst], rfl, .inl ⟨rfl, by simp [outstanding, nextStep, hst, initTxns]⟩⟩
  case fSleep =>
    obtain rfl : .wrReg s.params.regMode (sleepVal s.params s.eng.oldmode) = x := by
      simpa [presented, hst] using hx
    rw [completeEng_ok _ _ _ herr (by simp [hst])] at hmode ⊢
    obtain rfl : mode = s.eng.oldmode := by simpa [nextStep, hst] using hmode
    exact ⟨_, fun _ => rfl, rfl, .inl ⟨rfl, by simp [outstanding, nextStep, hst, seqTxns, sleepVal]⟩⟩
  case fPre =>
    obtain rfl : .wrReg s.params.regPrescale (prescaleByte (seqHz s.eng)) = x := by
      simpa [presented, hst] using hx
    rw [completeEng_ok _ _ _ herr (by simp [hst])] at hmode ⊢
    obtain rfl : mode = s.eng.oldmode := by simpa [nextStep, hst] using hmode
    exact ⟨_, fun _ => rfl, rfl, .inl ⟨rfl, by simp [outstanding, nextStep, hst, seqTxns, hbyte]⟩⟩
  case fRestore =>
    obtain rfl : .wrReg s.params.regMode s.eng.oldmode = x := by simpa [presented, hst] using hx
    rw [completeEng_ok _ _ _ herr (by simp [hst])] at hmode ⊢
    obtain rfl : mode = s.eng.oldmode := by simpa [nextStep, hst] using hmode
    exact ⟨_, fun _ => rfl, rfl, .inl ⟨rfl, by simp [outstanding, nextStep, hst, seqTxns]⟩⟩
  case fRestart =>
    obtain rfl : .wrReg s.params.regMode (restartVal s.params s.eng.oldmode) = x := by
      simpa [presented, hst] using hx
    rw [completeEng_ok _ _ _ herr (by simp [hst])]
    exact ⟨s.eng.oldmode, fun _ => rfl, by simp [outstanding, nextStep, hst, hpub],
      .inl ⟨rfl, by simp [outstanding, nextStep, hst, hpub, seqTxns, restartVal]⟩⟩

/-- The acceptance of SERVO or MOTOR starts the initialisation, if it is still to be done. -/
theorem outstanding_accept (p : Params) (mode : Byte) (e : Engine) (w : Word) (hidle : e.state = .idle)
    (hop : fieldOp w = 1#4 ∨ fieldOp w = 2#4) :
    outstanding p mode (acceptLegal (fieldOp w) (fieldId w) (fieldX w) (fieldY w) (fieldDir w)
      (firstStep (fieldOp w) e) e) = outstanding p mode e := by
  simp only [outstanding, acceptLegal_state, firstStep, if_pos hop, hidle]
  cases e.initDone <;> rfl

/-- The wait has one transaction outstanding, at its end as before. -/
theorem outstanding_waitEdge (p : Params) (mode : Byte) (e : Engine) (hs : e.state = .fWait) :
    outstanding p mode (waitEdge e) = outstanding p mode e := by
  unfold waitEdge
  split_ifs <;> simp [outstanding, hs]

/-- An edge at which nothing completes and nothing outstanding changes. -/
theorem advances_of_kept (p : Params) (e e' : Engine) (hmode : ∀ mode, readsMode mode e' → readsMode mode e)
    (h : ∀ mode, outstanding p mode e' = outstanding p mode e) : Advances p e e' none :=
  fun mode hm => ⟨mode, hmode mode hm, rfl, h mode⟩

/-- Each edge of such a machine makes progress. -/
theorem advances_step (s t : State) (hs : OnlyPublic s) (hoffer : offersPublic s.sampled)
    (hstep : step s = .next t) : Advances s.params s.eng t.eng (completion s) := by
  have hlegal := legal_of_offersPublic s.sampled hoffer
  obtain ⟨hrst, hnoerr, hop⟩ := hoffer
  cases edge_of_step s t hstep with
  | reset h => simp [hrst] at h
  | accept _ hidle hvalid =>
    rw [completion_of_not_presented s (presented_idle _ _ hidle)]
    exact advances_of_kept _ _ _ (fun _ _ => by simp [hidle])
      fun mode => outstanding_accept _ mode _ _ hidle (hop hvalid)
  | reject _ _ hvalid hillegal => simp [hlegal hvalid] at hillegal
  | hold _ hwhy =>
    have hnone : completion s = none := by
      obtain ⟨hidle, -⟩ | ⟨-, hdone⟩ | hfault := hwhy
      · exact completion_of_not_presented s (presented_idle _ _ hidle)
      · exact completion_of_not_done s hdone
      · exact completion_of_not_presented s (presented_fault _ _ hfault)
    rw [hnone]
    exact advances_of_kept _ _ _ (fun _ h => h) fun _ => rfl
  | fail x _ _ hdone herr => simp [hnoerr hdone] at herr
  | done x _ hx hdone herr =>
    rw [completion_of_done s x hx hrst hdone, herr]
    exact advances_done s hs x hx s.sampled herr
  | skip _ hchan hnone =>
    obtain ⟨-, hinit⟩ := hs.running (by obtain h | h := hchan <;> simp [h])
    have hset : s.eng.initDone = true := by
      rw [hinit]
      obtain h | h := hchan <;> rw [h] <;> rfl
    rw [completion_of_not_presented s hnone]
    exact advances_of_kept _ _ _ (fun _ _ => by obtain h | h := hchan <;> simp [h])
      fun mode => (outstanding_nextStep_chan _ mode _ hchan hset).trans (outstanding_chan _ mode _ hchan).symm
  | wait _ hwait =>
    rw [completion_of_not_presented s (presented_fWait _ _ hwait)]
    refine advances_of_kept _ _ _ (fun mode h _ => ?_) fun mode => outstanding_waitEdge _ mode _ hwait
    rw [withEng_eng, waitEdge_frame] at h
    refine h ?_
    unfold waitEdge
    split_ifs <;> simp [hwait]

/-- The transactions of a run are the first ones of those outstanding, followed by bursts. -/
theorem trace_prefix_outstanding (n : Nat) (s : State) (hs : OnlyPublic s) (hn : n ≤ s.inputs.length)
    (hins : ∀ i ∈ s.inputs, offersPublic i) :
    ∃ mode bursts, readsMode mode s.eng ∧ bursts.all isAckedBurst = true
      ∧ trace n s <+: allAcked (outstanding s.params mode s.eng) ++ bursts := by
  induction n generalizing s with
  | zero => exact ⟨s.eng.oldmode, [], fun _ => rfl, rfl, List.nil_prefix⟩
  | succ n ih =>
    obtain ⟨i, l, hin⟩ := List.exists_cons_of_length_pos (show 0 < s.inputs.length by omega)
    have hoffer : offersPublic s.sampled := hins _ (by simp [sampled_cons s i l hin, hin])
    obtain ⟨t, hstep, hparams, hinputs, -⟩ := everyEdgeHasNextState s
    have hlen : n ≤ t.inputs.length := by
      rw [hinputs, List.length_tail]
      omega
    obtain ⟨mode, bursts, hmode, hbursts, hprefix⟩ := ih t (onlyPublic_step s t hs hoffer hstep) hlen
      fun j hj => hins j (List.mem_of_mem_tail (hinputs ▸ hj))
    obtain ⟨mode', hmode', hsame, hprogress⟩ := advances_step s t hs hoffer hstep mode hmode
    rw [hparams, ← hsame] at hprefix
    rw [trace_succ n s t hstep]
    cases hc : completion s with
    | none =>
      rw [hc] at hprogress
      refine ⟨mode', bursts, hmode', hbursts, ?_⟩
      rw [← show outstanding s.params mode' t.eng = _ from hprogress]
      exact hprefix
    | some c =>
      rw [hc] at hprogress
      obtain ⟨hok, hfirst⟩ | ⟨hburst, hover, hover'⟩ := hprogress
      · refine ⟨mode', bursts, hmode', hbursts, ?_⟩
        rw [hfirst]
        obtain ⟨x, b⟩ := c
        obtain rfl : b = false := hok
        exact List.cons_prefix_cons.2 ⟨rfl, hprefix⟩
      · refine ⟨mode', c :: bursts, hmode', by rw [List.all_cons, hburst, hbursts]; rfl, ?_⟩
        rw [hover'] at hprefix
        rw [hover]
        exact List.cons_prefix_cons.2 ⟨rfl, hprefix⟩

/-- Settles O52: at reset the whole initialisation is outstanding. -/
theorem onceOnlyInitialisation : Obligations.OnceOnlyInitialisation := by
  intro p ins n hwf hn hins
  have hs : OnlyPublic { State.resetWith p with inputs := ins } :=
    ⟨inv_resetWith p hwf, by simp [Engine.reset], fun h => absurd rfl h⟩
  obtain ⟨mode, bursts, -, hbursts, hprefix⟩ := trace_prefix_outstanding n _ hs hn hins
  exact ⟨mode, bursts, hbursts, hprefix⟩

end Sys2Proof.Machine
end
